-- ==== Sys2Proof/Config.lean ====
section
/-! DEFINITION. The named parameters of spec/00_scope.md R6 (each with the value the spec prints), the font of
spec/10_state.md R36, what memory holds at reset (R39), and the one free value of the model: the random byte (R171). -/

namespace Sys2Proof.Config

/-- `MEM_SIZE`: bytes of memory, addresses 0 to 4095. -/
@[simp] abbrev memSize : Nat := 4096

/-- `LOAD_OFFSET`: address of the first program byte and reset value of `pc`. -/
@[simp] abbrev loadOffset : Nat := 0x200

/-- `MAX_IMAGE`: the largest program image in bytes. -/
@[simp] abbrev maxImage : Nat := memSize - loadOffset

/-- `NUM_REGS`: general registers `v[0]` to `v[15]`. -/
@[simp] abbrev numRegs : Nat := 16

/-- `REG_BITS`: width of a general register, of a timer, of a memory byte. -/
@[simp] abbrev regBits : Nat := 8

/-- The largest value of a register, timer or byte: 255 (R7: every value is unsigned). -/
@[simp] abbrev regMax : Nat := 2 ^ regBits - 1

/-- `I_BITS`: width of the index register. -/
@[simp] abbrev iBits : Nat := 16

/-- `PC_BITS`: width of the program counter. -/
@[simp] abbrev pcBits : Nat := 16

/-- `STACK_SLOTS`: entries of the stack, each 16 bits. -/
@[simp] abbrev stackSlots : Nat := 16

/-- `FONT_BASE`: address of the first font byte. -/
@[simp] abbrev fontBase : Nat := 0

/-- `FONT_GLYPHS`: glyphs in the font. -/
@[simp] abbrev fontGlyphs : Nat := 16

/-- `GLYPH_BYTES`: bytes per glyph, and the multiplier of `Fx29`. -/
@[simp] abbrev glyphBytes : Nat := 5

/-- `FONT_SIZE`: the font occupies 0x000 to 0x04F. -/
@[simp] abbrev fontSize : Nat := fontGlyphs * glyphBytes

/-- `FLAG_REG`: the register doubly used as the carry, borrow and collision flag (R22). -/
@[simp] abbrev flagReg : Fin numRegs := 15

/-- `INSTR_BYTES`: bytes per instruction, and the normal step of `pc`. -/
@[simp] abbrev instrBytes : Nat := 2

/-- `SP_MAX`: the largest value of `sp`; a call at this value overflows. -/
@[simp] abbrev spMax : Nat := 15

/-- `STACK_DEPTH`: nested calls possible before overflow; the slots but slot 0, which is never used (R25). -/
@[simp] abbrev stackDepth : Nat := stackSlots - 1

/-- `FB_W`: framebuffer width in pixels. -/
@[simp] abbrev fbWidth : Nat := 64

/-- `FB_H`: framebuffer height in pixels. -/
@[simp] abbrev fbHeight : Nat := 32

/-- `SPRITE_W`: pixels per sprite row, one byte. -/
@[simp] abbrev spriteWidth : Nat := 8

/-- `NUM_KEYS`: keys of the keypad. -/
@[simp] abbrev numKeys : Nat := 16

/-- `TIMER_PERIOD`: ticks between timer decrements. -/
@[simp] abbrev timerPeriod : Nat := 9

/-- `FONT`: the 80 font bytes, glyph d at `5d`, top row first (R36). PRESUMED: the source prints no font bytes and
the spec takes the table in general use (spec/92_eei_decisions.md D13); notes/assumptions/1.md. -/
def font : List (BitVec regBits) :=
  [0xF0, 0x90, 0x90, 0x90, 0xF0] ++ [0x20, 0x60, 0x20, 0x20, 0x70] ++
  [0xF0, 0x10, 0xF0, 0x80, 0xF0] ++ [0xF0, 0x10, 0xF0, 0x10, 0xF0] ++
  [0x90, 0x90, 0xF0, 0x10, 0x10] ++ [0xF0, 0x80, 0xF0, 0x10, 0xF0] ++
  [0xF0, 0x80, 0xF0, 0x90, 0xF0] ++ [0xF0, 0x10, 0x20, 0x40, 0x40] ++
  [0xF0, 0x90, 0xF0, 0x90, 0xF0] ++ [0xF0, 0x90, 0xF0, 0x10, 0xF0] ++
  [0xF0, 0x90, 0xF0, 0x90, 0x90] ++ [0xE0, 0x90, 0xE0, 0x90, 0xE0] ++
  [0xF0, 0x80, 0x80, 0x80, 0xF0] ++ [0xE0, 0x90, 0x90, 0x90, 0xE0] ++
  [0xF0, 0x80, 0xF0, 0x80, 0xF0] ++ [0xF0, 0x80, 0xF0, 0x80, 0x80]

/-- What an address of memory holds at reset, and so what an address that the memory list does not name reads as:
the font at 0x000 to 0x04F and 0x00 everywhere else (R39, R61; spec/92_eei_decisions.md D19). -/
def resetByte (a : Nat) : BitVec regBits := (font[a - fontBase]?).getD 0

/-- The n-th random byte of a supply about which nothing is promised (R171, spec/92_eei_decisions.md D15: "any
value"). A FREE VALUE: it has no body, so no proof can rest on what it is; notes/assumptions/2.md. -/
opaque randomByte : Nat → BitVec regBits

end Sys2Proof.Config
end

