-- ==== Sys2Proof/Word.lean ====
section
/-! DEFINITION. The widths of the machine's values (spec/00_scope.md R6, R7; spec/30_encoding.md R91).
Every value is unsigned; nothing in this machine is sign-extended (R7). -/

namespace Sys2Proof

/-- A memory byte, a general register or a timer: 8 bits (`REG_BITS`). -/
abbrev Byte := BitVec Config.regBits

/-- An instruction word, a stack slot, the information of a fault: 16 bits. -/
abbrev Word := BitVec 16

/-- The index register (`I_BITS`). -/
abbrev IndexWord := BitVec Config.iBits

/-- The program counter (`PC_BITS`). -/
abbrev PcWord := BitVec Config.pcBits

/-- The keypad, one bit a key (`NUM_KEYS`). -/
abbrev Keypad := BitVec Config.numKeys

/-- A 4-bit field of an instruction word (R91: class, x, y, n). -/
abbrev Nibble := BitVec 4

/-- The 12-bit immediate address `nnn` (R91). -/
abbrev Addr12 := BitVec 12

/-- A general register's index, 0 to 15 (R21, R93): it selects `v[i]` directly. -/
abbrev Reg := Fin Config.numRegs

end Sys2Proof
end

