-- ==== Sys2Proof/Syntax.lean ====
section
/-! DEFINITION. The 34 instructions (spec/30_encoding.md R95), one constructor per row of spec/opcode_table.json, in
the table's order. Operands are the fields of R91 and R93: register indices, immediates, a 12-bit address, a row
count. A nibble that the instruction decodes but does not use (R96: `y` of the shifts, `n` of classes 5 and 9) is
kept, so that no bit of a word is dropped by decoding. -/

namespace Sys2Proof

/-- The instructions. -/
inductive Instr where
  /-- `00E0` CLS: clear the screen (R210). -/
  | cls
  /-- `00EE` RET: return from subroutine (R140). -/
  | ret
  /-- `1nnn` JP nnn: jump (R141). -/
  | jp (nnn : Addr12)
  /-- `2nnn` CALL nnn: call subroutine (R142). -/
  | call (nnn : Addr12)
  /-- `3xkk` SE Vx, kk: skip if equal to the immediate (R143). -/
  | seImm (x : Reg) (kk : Byte)
  /-- `4xkk` SNE Vx, kk: skip if different from the immediate (R144). -/
  | sneImm (x : Reg) (kk : Byte)
  /-- `5xy0` SE Vx, Vy: skip if the registers are equal (R145); `n` is not examined (R94). -/
  | seReg (x y : Reg) (n : Nibble)
  /-- `6xkk` LD Vx, kk: load immediate (R160). -/
  | ldImm (x : Reg) (kk : Byte)
  /-- `7xkk` ADD Vx, kk: add immediate, no flag (R161). -/
  | addImm (x : Reg) (kk : Byte)
  /-- `8xy0` LD Vx, Vy: copy (R162). -/
  | ldReg (x y : Reg)
  /-- `8xy1` OR Vx, Vy (R163). -/
  | orReg (x y : Reg)
  /-- `8xy2` AND Vx, Vy (R164). -/
  | andReg (x y : Reg)
  /-- `8xy3` XOR Vx, Vy (R165). -/
  | xorReg (x y : Reg)
  /-- `8xy4` ADD Vx, Vy: add with carry out (R166). -/
  | addReg (x y : Reg)
  /-- `8xy5` SUB Vx, Vy: `v[x] - v[y]` (R167). -/
  | subReg (x y : Reg)
  /-- `8xy6` SHR Vx: shift right by one (R168); `y` is ignored (R96). -/
  | shr (x y : Reg)
  /-- `8xy7` SUBN Vx, Vy: `v[y] - v[x]` (R169). -/
  | subnReg (x y : Reg)
  /-- `8xyE` SHL Vx: shift left by one (R170); `y` is ignored (R96). -/
  | shl (x y : Reg)
  /-- `9xy0` SNE Vx, Vy: skip if the registers differ (R146); `n` is not examined (R94). -/
  | sneReg (x y : Reg) (n : Nibble)
  /-- `Annn` LD I, nnn: load the index register (R190). -/
  | ldI (nnn : Addr12)
  /-- `Bnnn` JP V0, nnn: jump to `nnn` plus `v[0]` (R147). -/
  | jpV0 (nnn : Addr12)
  /-- `Cxkk` RND Vx, kk: random byte masked by `kk` (R171). -/
  | rnd (x : Reg) (kk : Byte)
  /-- `Dxyn` DRW Vx, Vy, n: draw an `n`-row sprite (R211). `n` is a count, 0 to 15. -/
  | drw (x y : Reg) (n : Nat)
  /-- `Ex9E` SKP Vx: skip if the key numbered `v[x]` is down (R230). -/
  | skp (x : Reg)
  /-- `ExA1` SKNP Vx: skip if the key numbered `v[x]` is up (R231). -/
  | sknp (x : Reg)
  /-- `Fx07` LD Vx, DT: read the delay timer (R232). -/
  | ldVxDt (x : Reg)
  /-- `Fx0A` LD Vx, K: wait for a key (R233). -/
  | ldVxK (x : Reg)
  /-- `Fx15` LD DT, Vx: set the delay timer (R234). -/
  | ldDtVx (x : Reg)
  /-- `Fx18` LD ST, Vx: set the sound timer (R235). -/
  | ldStVx (x : Reg)
  /-- `Fx1E` ADD I, Vx: add a register to the index register (R191). -/
  | addI (x : Reg)
  /-- `Fx29` LD F, Vx: point `I` at the font glyph for `v[x]` (R192). -/
  | ldF (x : Reg)
  /-- `Fx33` LD B, Vx: store the decimal digits of `v[x]` (R193). -/
  | ldB (x : Reg)
  /-- `Fx55` LD [I], Vx: register dump (R194). -/
  | ldMemVx (x : Reg)
  /-- `Fx65` LD Vx, [I]: register load (R195). -/
  | ldVxMem (x : Reg)
  deriving DecidableEq, Repr

end Sys2Proof
end

