-- ==== Sys2Proof/WellFormed.lean ====
section
/-! DEFINITION. Which terms of `Instr` and which program images the hardware has. Register indices, immediates and
addresses carry their bounds in their types; what is left to check is the sprite's row count (spec/30_encoding.md R93:
"`n` is an unsigned 4-bit count (sprite rows, 0 to 15)") and the length of an image (spec/70_reset_and_hazards.md
R293). -/

namespace Sys2Proof

/-- Every operand lies in the range its field can hold (R93). -/
def Instr.wellFormed : Instr → Bool
  | .drw _ _ n => decide (n ≤ 15)
  | .cls | .ret | .jp _ | .call _ | .seImm _ _ | .sneImm _ _ | .seReg _ _ _ | .ldImm _ _ | .addImm _ _ | .ldReg _ _
  | .orReg _ _ | .andReg _ _ | .xorReg _ _ | .addReg _ _ | .subReg _ _ | .shr _ _ | .subnReg _ _ | .shl _ _
  | .sneReg _ _ _ | .ldI _ | .jpV0 _ | .rnd _ _ | .skp _ | .sknp _ | .ldVxDt _ | .ldVxK _ | .ldDtVx _ | .ldStVx _
  | .addI _ | .ldF _ | .ldB _ | .ldMemVx _ | .ldVxMem _ => true

/-- A program image that `load` accepts: at most `MAX_IMAGE` = 3584 bytes, of any parity, the empty one included
(R293). -/
def imageWellFormed (image : List Byte) : Bool := decide (image.length ≤ Config.maxImage)

end Sys2Proof
end

