-- ==== Sys2Proof/Machine/State.lean ====
section
/-! DEFINITION. The machine state (spec/10_state.md R20: "Its fields are exactly these"), its reset value (R39), and
the reasons a host operation can end without a next state. A tick never does: a fault of the machine is a next state
with `halted` set (R9: "there is no third outcome"). -/

namespace Sys2Proof.Machine

/-- The cause codes of spec/60_exceptions.md R250. -/
inductive FaultCause where
  /-- Code 0: no fault, the reset value (R39). -/
  | noFault
  /-- Code 1: the fetched word is none of the 34 instructions (R251). -/
  | unknownOpcode
  /-- Code 2: a Call with `sp = 15` (R252). -/
  | stackOverflow
  /-- Code 3: a Return with `sp = 0` (R253). -/
  | stackUnderflow
  /-- Code 4: an address of the access is 4096 or more (R254). -/
  | memoryOutOfRange
  /-- Code 5: `Ex9E` or `ExA1` with `v[x] > 15` (R255). -/
  | keyIndexOutOfRange
  /-- Code 6: `load` of more than 3584 bytes; never raised by a tick (R256). -/
  | imageTooLarge
  deriving DecidableEq, Repr

/-- The number of a cause (R250, first column). -/
def FaultCause.code : FaultCause → Nat
  | .noFault => 0
  | .unknownOpcode => 1
  | .stackOverflow => 2
  | .stackUnderflow => 3
  | .memoryOutOfRange => 4
  | .keyIndexOutOfRange => 5
  | .imageTooLarge => 6

/-- Memory as the list of the bytes that differ from what reset leaves (`Config.resetByte`), addresses strictly
rising. -/
abbrev Memory := List Host.Cell

/-- The framebuffer: 32 rows from the top, each of 64 one-bit pixels, the leftmost in the most significant bit
(R29; spec/92_eei_decisions.md D12). -/
abbrev Framebuffer := Vector (BitVec Config.fbWidth) Config.fbHeight

/-- The machine state: the record of R20 and the random-byte input's position. -/
structure State where
  /-- `mem`, 4096 bytes (R35, R60). -/
  mem : Memory
  /-- `v[0]` to `v[15]` (R21); `v[15]` doubles as the flag (R22). -/
  v : Vector Byte Config.numRegs
  /-- The index register (R23). -/
  I : IndexWord
  /-- The program counter (R24). -/
  pc : PcWord
  /-- The 16 return-address slots (R25). -/
  stack : Vector Word Config.stackSlots
  /-- The stack pointer, an integer 0 to 15 (R26). -/
  sp : Fin Config.stackSlots
  /-- The delay timer (R27). -/
  dt : Byte
  /-- The sound timer (R28). -/
  st : Byte
  /-- The framebuffer (R29). -/
  fb : Framebuffer
  /-- "Changed since last presented" (R30). -/
  dirty : Bool
  /-- The keypad snapshot of the coming tick, `key[k]` in bit `k` (R31, R38). -/
  key : Keypad
  /-- The tick counter, an unbounded natural number (R32). -/
  cycleCount : Nat
  /-- The most recently fetched word, the trace output (R33). -/
  currentInstruction : Word
  /-- The session has ended in a fault (R34). -/
  halted : Bool
  /-- Why it ended (R34, R250). -/
  faultCause : FaultCause
  /-- The offending word, address or key index (R34, R250). -/
  faultInfo : Word
  /-- MODEL'S OWN: random bytes the host has injected and no `Cxkk` has taken yet (R171: "tests must be able to
  inject a fixed sequence"); notes/assumptions/2.md. -/
  rndInjected : List Byte
  /-- MODEL'S OWN: how many random bytes have been taken; with nothing injected the next byte is the free value
  `Config.randomByte rndDrawn`; notes/assumptions/2.md. -/
  rndDrawn : Nat
  deriving DecidableEq, Repr

/-- The machine right after `reset()` (R39, R290). Memory lists nothing: it reads as `Config.resetByte`. -/
def State.reset : State where
  mem := []
  v := Vector.replicate Config.numRegs 0
  I := 0
  pc := BitVec.ofNat Config.pcBits Config.loadOffset
  stack := Vector.replicate Config.stackSlots 0
  sp := 0
  dt := 0
  st := 0
  fb := Vector.replicate Config.fbHeight 0
  dirty := false
  key := 0
  cycleCount := 0
  currentInstruction := 0
  halted := false
  faultCause := .noFault
  faultInfo := 0
  rndInjected := []
  rndDrawn := 0

/-- Why an operation stops with a fault. No tick raises one: the machine's own faults are next states (R260). -/
inductive Fault where
  /-- Raised by the host operation `load` for an image of more than 3584 bytes, with the length (R256, R293: "rejected
  before any state mutation"). Safe: nothing changes and the session does not start. -/
  | imageTooLarge (length : Nat)
  deriving DecidableEq, Repr

/-- Why an operation has no meaning. -/
inductive Refusal where
  /-- Raised by an arm of `exec` whose instruction has no meaning yet; none is left. Safe. -/
  | notModelled (mnemonic : String)
  /-- Raised by the host operation `load` after the first tick of the session (spec/70_reset_and_hazards.md R294: "a
  model should refuse it, not give it a meaning"). Safe. -/
  | loadAfterFirstTick
  deriving DecidableEq, Repr

end Sys2Proof.Machine
end

