-- ==== Sys2Proof/Machine/Ops.lean ====
section
/-! DEFINITION. The named operations over memory, registers, stack, timers and `pc` on which every meaning is built,
how an instruction's tick ends, and taking a fault: ONE operation, `raises`. There is no return from a fault: the
machine leaves the halted state by reset only (spec/60_exceptions.md R262). -/

namespace Sys2Proof.Machine

/-! ### Memory (spec/20_memory.md) -/

/-- The byte at an address: the listed one, or what reset left there (R60, R70). -/
def Memory.read : Memory → Nat → Byte
  | [], a => Config.resetByte a
  | (k, b) :: rest, a => if k = a then b else Memory.read rest a

/-- Put a byte at an address, keeping the list in its canonical form. -/
def Memory.put : Memory → Nat → Byte → Memory
  | [], a, b => if b = Config.resetByte a then [] else [(a, b)]
  | (k, c) :: rest, a, b =>
    if a < k then (if b = Config.resetByte a then (k, c) :: rest else (a, b) :: (k, c) :: rest)
    else if a = k then (if b = Config.resetByte a then rest else (a, b) :: rest)
    else (k, c) :: Memory.put rest a b

/-- Write one byte. Every byte is ordinary writable storage (R60, R68); an access to an address of 4096 or more does
not happen (R65). -/
def Memory.write (m : Memory) (a : Nat) (b : Byte) : Memory := if a < Config.memSize then m.put a b else m

/-- Write single bytes at increasing addresses (R62, R70). -/
def Memory.writeBytes (m : Memory) (a : Nat) : List Byte → Memory
  | [] => m
  | b :: bs => Memory.writeBytes (m.write a b) (a + 1) bs

/-- Read `n` single bytes at increasing addresses. -/
def Memory.readBytes (m : Memory) (a : Nat) : Nat → List Byte
  | 0 => []
  | n + 1 => m.read a :: Memory.readBytes m (a + 1) n

/-- From address `lo` on: addresses strictly rising, below 4096, and no entry equal to what reset left there. -/
def Memory.wfFrom (lo : Nat) : Memory → Bool
  | [] => true
  | (k, b) :: rest => decide (lo ≤ k) && decide (k < Config.memSize) && decide (b ≠ Config.resetByte k) &&
      Memory.wfFrom (k + 1) rest

/-- The canonical form of a memory: equal memories are equal lists. -/
def Memory.wf (m : Memory) : Bool := Memory.wfFrom 0 m

/-- The lowest address of `base .. base + len - 1` that is out of range, if there is one: `max(base, 4096)` (R65 to
R67, R8; spec/92_eei_decisions.md D4). Addresses are natural numbers and do not wrap (R66). -/
def outOfRange (base len : Nat) : Option Nat :=
  if len = 0 ∨ base + len ≤ Config.memSize then none else some (max base Config.memSize)

/-! ### General registers (spec/10_state.md R21) -/

/-- `v[x]`. No register is hardwired. -/
def State.reg (s : State) (x : Reg) : Byte := s.v[x.val]

/-- `v[x] <- b`. -/
def State.setReg (s : State) (x : Reg) (b : Byte) : State := { s with v := s.v.set x.val b }

/-! ### The other state -/

/-- `I <- w`: all 16 bits are stored (R23). -/
def State.setI (s : State) (w : IndexWord) : State := { s with I := w }

/-- `pc <- w`. -/
def State.setPc (s : State) (w : PcWord) : State := { s with pc := w }

/-- Memory replaced. -/
def State.setMem (s : State) (m : Memory) : State := { s with mem := m }

/-- All general registers replaced. -/
def State.setRegs (s : State) (v : Vector Byte Config.numRegs) : State := { s with v := v }

/-- `dt <- b`. -/
def State.setDt (s : State) (b : Byte) : State := { s with dt := b }

/-- `st <- b`. -/
def State.setSt (s : State) (b : Byte) : State := { s with st := b }

/-- The framebuffer is written and marked dirty, whether or not a pixel changed (R30, R210, R211). -/
def State.setPicture (s : State) (fb : Framebuffer) : State := { s with fb := fb, dirty := true }

/-- `sp <- sp + 1; stack[sp] <- w` (R142; spec/92_eei_decisions.md D6): for `sp < 15`. -/
def State.pushReturn (s : State) (w : Word) : State :=
  { s with sp := s.sp + 1, stack := s.stack.set (s.sp + 1).val w }

/-- `pc <- stack[sp]; sp <- sp - 1` (R140): for `sp > 0`. The popped slot keeps its value. -/
def State.popReturn (s : State) : State := { s with pc := s.stack[s.sp.val], sp := s.sp - 1 }

/-- The next byte of the random supply: the oldest injected one, or a free value (R171, D15). -/
def State.randomByte (s : State) : Byte := s.rndInjected.headD (Config.randomByte s.rndDrawn)

/-- Exactly one random byte is consumed (R171). -/
def State.takeRandom (s : State) : State :=
  { s with rndInjected := s.rndInjected.tail, rndDrawn := s.rndDrawn + 1 }

/-! ### The end of an instruction (spec/40_tick_cycle.md R126, R128) -/

/-- `(pc + 2) mod 2^16`. -/
def nextPc (w : PcWord) : PcWord := w + BitVec.ofNat Config.pcBits Config.instrBytes

/-- Phase 5: `pc <- (pc + 2) mod 2^16`. -/
def State.advance (s : State) : State := s.setPc (nextPc s.pc)

/-- The skip of the execute phase: when the condition holds, `pc <- (pc + 2) mod 2^16` (R128). -/
def State.skipIf (s : State) (c : Bool) : State := s.setPc (if c then nextPc s.pc else s.pc)

/-- The instruction completed with `advance = true`: the tick adds 2 to the `pc` it left (R126). -/
def completes (s : State) : Host.Outcome State Fault Refusal := .next s.advance

/-- The instruction completed with `advance = false`: nothing is added (R126). -/
def redirects (s : State) : Host.Outcome State Fault Refusal := .next s

/-! ### Taking a fault (spec/60_exceptions.md R260) -/

/-- The state a fault leaves: `halted`, the cause and the information are written and nothing else changes; `pc`
keeps the address of the faulting instruction (R129, R260, R261; spec/92_eei_decisions.md D17). -/
def State.enterFault (s : State) (c : FaultCause) (info : Word) : State :=
  { s with halted := true, faultCause := c, faultInfo := info }

/-- `raise F(info)`: the tick ends with the fault taken (R8, R129). The state given is the one before the faulting
instruction's first write. -/
def raises (c : FaultCause) (info : Word) (s : State) : Host.Outcome State Fault Refusal :=
  .next (s.enterFault c info)

/-- An address as the 16-bit information of `MemoryOutOfRange`; it is at most 65535 (R250). -/
def addressInfo (a : Nat) : Word := BitVec.ofNat 16 a

/-- Run `k` when every address of `base .. base + len - 1` is in range; otherwise fault before any write with the
lowest bad address (R67). -/
def withRange (base len : Nat) (s : State) (k : Host.Outcome State Fault Refusal) : Host.Outcome State Fault Refusal :=
  match outOfRange base len with
  | some a => raises .memoryOutOfRange (addressInfo a) s
  | none => k

/-! ### Phases 1 to 3 of a tick (spec/40_tick_cycle.md) -/

/-- Phase 1: `cycle_count <- cycle_count + 1` (R122). -/
def State.countCycle (s : State) : State := { s with cycleCount := s.cycleCount + 1 }

/-- A timer counts down to 0 and stays there (R123). -/
def countDown (b : Byte) : Byte := if b = 0 then 0 else b - 1

/-- Is this the tick on which the timers are decremented (R123)? -/
def timersDue (cycleCount : Nat) : Bool := cycleCount % Config.timerPeriod == 0

/-- Phase 2: the timer cadence, each timer by itself (R123). -/
def State.runTimers (s : State) : State :=
  { s with
    dt := if timersDue s.cycleCount then countDown s.dt else s.dt
    st := if timersDue s.cycleCount then countDown s.st else s.st }

/-- The word at an address, big-endian (R62). -/
def Memory.readWord (m : Memory) (a : Nat) : Word := wordOfBytes (m.read a) (m.read (a + 1))

/-- The word the fetch reads at `pc` (R124): no alignment is required (R63). -/
def State.wordAtPc (s : State) : Word := s.mem.readWord s.pc.toNat

/-- `current_instruction <- word` (R124). -/
def State.latch (s : State) (w : Word) : State := { s with currentInstruction := w }

end Sys2Proof.Machine
end

