-- ==== Sys2Proof/Machine/Operands.lean ====
section
/-! DEFINITION. The operand forms: immediates and registers widened without sign (spec/30_encoding.md R93), the one
data addressing mode `I + k` (spec/43_index_memory.md R196), decimal digits, the register list of dump and load,
keypad operands, sprite coordinates and pixels. -/

namespace Sys2Proof.Machine

/-- `nnn`, zero-extended to the program counter's width (R93). -/
def pcOfAddr (nnn : Addr12) : PcWord := nnn.setWidth Config.pcBits

/-- `nnn`, zero-extended to the index register's width (R93). -/
def indexOfAddr (nnn : Addr12) : IndexWord := nnn.setWidth Config.iBits

/-- A byte, zero-extended to the program counter's width. -/
def pcOfByte (b : Byte) : PcWord := b.setWidth Config.pcBits

/-- A byte, zero-extended to the index register's width. -/
def indexOfByte (b : Byte) : IndexWord := b.setWidth Config.iBits

/-- A byte as the 16-bit information of a fault (R250). -/
def infoOfByte (b : Byte) : Word := b.setWidth 16

/-- The effective address of element `k`: the natural number `I + k`, never wrapped (R66, R196). -/
def State.effAddr (s : State) (k : Nat) : Nat := s.I.toNat + k

/-- Hundreds, tens and ones of a byte, in that order (R193). -/
def bcdDigits (b : Byte) : List Byte :=
  [BitVec.ofNat Config.regBits (b.toNat / 100), BitVec.ofNat Config.regBits (b.toNat / 10 % 10),
   BitVec.ofNat Config.regBits (b.toNat % 10)]

/-- `v[0]` to `v[x]`, `v[0]` first (R194). -/
def State.regsUpTo (s : State) (x : Reg) : List Byte := s.v.toList.take (x.val + 1)

/-- The registers after `v[k] <- MemRead(base + k, 1)` for `k` in `0 .. n-1` (R195). -/
def loadRegs (m : Memory) (base : Nat) (v : Vector Byte Config.numRegs) : Nat → Vector Byte Config.numRegs
  | 0 => v
  | n + 1 => (loadRegs m base v n).setIfInBounds n (m.read (base + n))

/-- `key[k] = 1`: key `k` is down (R31, R38). -/
def keyDown (key : Keypad) (k : Nat) : Bool := key.getLsbD k

/-- The least key that is down, if any is (R233). -/
def lowestKeyDown (key : Keypad) : Option Nat := (List.range Config.numKeys).find? (keyDown key)

/-- A key index above 15 names no key (R230, R231; spec/92_eei_decisions.md D14). -/
def keyIndexBad (b : Byte) : Bool := decide (Config.numKeys ≤ b.toNat)

/-- The column of a sprite's origin: `v[x] mod 64` (R211). -/
def originX (b : Byte) : Nat := b.toNat % Config.fbWidth

/-- The row of a sprite's origin: `v[y] mod 32` (R211). -/
def originY (b : Byte) : Nat := b.toNat % Config.fbHeight

/-- Pixel `c` of a sprite row, counted from the left: bit `7 - c` (R211; spec/92_eei_decisions.md D12). -/
def spritePixel (b : Byte) (c : Nat) : Bool := b.getLsbD (Config.spriteWidth - 1 - c)

/-- `fb[row][col]`, the pixel (col, row); off the grid there is none (R29). -/
def Framebuffer.pixel (fb : Framebuffer) (row col : Nat) : Bool :=
  if h : row < Config.fbHeight then fb[row].getMsbD col else false

/-- The linear view: `fb_lin[row × 64 + col]` (R29). -/
def Framebuffer.linear (fb : Framebuffer) (k : Nat) : Bool :=
  fb.pixel (k / Config.fbWidth) (k % Config.fbWidth)

/-- `fb[row][col] <- fb[row][col] ^ 1`, for a pixel on the grid. -/
def Framebuffer.flip (fb : Framebuffer) (row col : Nat) : Framebuffer :=
  if h : row < Config.fbHeight then fb.set row (fb[row] ^^^ (1#Config.fbWidth <<< (Config.fbWidth - 1 - col))) else fb

end Sys2Proof.Machine
end

