-- ==== Sys2Proof/Machine/Flags.lean ====
section
/-! DEFINITION. Every flag computation. The flag is register `v[15]`, an ordinary register (spec/10_state.md R22); a
flag-setting instruction writes its result first and the flag second (spec/42_load_alu_random.md R173;
spec/92_eei_decisions.md D8). -/

namespace Sys2Proof.Machine

/-- A flag as the value 0 or 1 that is written to VF (R22). -/
def flagByte (c : Bool) : Byte := if c then 1 else 0

/-- `v[15] <- 0 or 1`. -/
def State.setFlag (s : State) (c : Bool) : State := s.setReg Config.flagReg (flagByte c)

/-- `v[x] <- r`, then `v[15] <- flag`: with `x = 15` the flag wins (R173). -/
def State.setResultFlag (s : State) (x : Reg) (r : Byte) (c : Bool) : State := (s.setReg x r).setFlag c

/-- The carry of `8xy4`: the raw sum exceeds 255 (R166, R172). -/
def carryOut (a b : Byte) : Bool := decide (Config.regMax < a.toNat + b.toNat)

/-- The flag of a subtraction: the minuend is strictly greater than the subtrahend (R167, R169, R172;
spec/90_conflicts.md C7, spec/92_eei_decisions.md D9). -/
def exceeds (minuend subtrahend : Byte) : Bool := decide (subtrahend.toNat < minuend.toNat)

/-- The bit a shift right moves out (R168). -/
def lowBit (a : Byte) : Bool := a.getLsbD 0

/-- The bit a shift left moves out (R170). -/
def highBit (a : Byte) : Bool := a.getLsbD (Config.regBits - 1)

end Sys2Proof.Machine
end

