-- ==== Sys2Proof/Machine/Alu.lean ====
section
/-! DEFINITION. Register loads, ALU operations and random: the meanings of spec/42_load_alu_random.md. Operands are
read from the state before the instruction (R173); none of these touches memory or faults, and each completes with
`advance = true`. -/

namespace Sys2Proof.Machine

/-- `6xkk` LD Vx, kk: `v[x] <- kk` (R160). -/
def execLdImm (x : Reg) (kk : Byte) (s : State) : Host.Outcome State Fault Refusal :=
  completes (s.setReg x kk)

/-- `7xkk` ADD Vx, kk: `v[x] <- (v[x] + kk) mod 256`, no flag (R161). -/
def execAddImm (x : Reg) (kk : Byte) (s : State) : Host.Outcome State Fault Refusal :=
  completes (s.setReg x (s.reg x + kk))

/-- `8xy0` LD Vx, Vy: `v[x] <- v[y]` (R162). -/
def execLdReg (x y : Reg) (s : State) : Host.Outcome State Fault Refusal :=
  completes (s.setReg x (s.reg y))

/-- `8xy1` OR Vx, Vy: VF is not written (R163; spec/92_eei_decisions.md D10). -/
def execOrReg (x y : Reg) (s : State) : Host.Outcome State Fault Refusal :=
  completes (s.setReg x (s.reg x ||| s.reg y))

/-- `8xy2` AND Vx, Vy: VF is not written (R164; D10). -/
def execAndReg (x y : Reg) (s : State) : Host.Outcome State Fault Refusal :=
  completes (s.setReg x (s.reg x &&& s.reg y))

/-- `8xy3` XOR Vx, Vy: VF is not written (R165; D10). -/
def execXorReg (x y : Reg) (s : State) : Host.Outcome State Fault Refusal :=
  completes (s.setReg x (s.reg x ^^^ s.reg y))

/-- `8xy4` ADD Vx, Vy: the low 8 bits of the sum, VF the carry out; no carry comes in (R166). -/
def execAddReg (x y : Reg) (s : State) : Host.Outcome State Fault Refusal :=
  completes (s.setResultFlag x (s.reg x + s.reg y) (carryOut (s.reg x) (s.reg y)))

/-- `8xy5` SUB Vx, Vy: `(v[x] - v[y]) mod 256`, VF = 1 exactly when `v[x] > v[y]` (R167). -/
def execSubReg (x y : Reg) (s : State) : Host.Outcome State Fault Refusal :=
  completes (s.setResultFlag x (s.reg x - s.reg y) (exceeds (s.reg x) (s.reg y)))

/-- `8xy6` SHR Vx: `v[x] >> 1`, VF the bit shifted out; `y` plays no part (R168, R96). -/
def execShr (x _y : Reg) (s : State) : Host.Outcome State Fault Refusal :=
  completes (s.setResultFlag x (s.reg x >>> 1) (lowBit (s.reg x)))

/-- `8xy7` SUBN Vx, Vy: `(v[y] - v[x]) mod 256`, VF = 1 exactly when `v[y] > v[x]` (R169; D9). -/
def execSubnReg (x y : Reg) (s : State) : Host.Outcome State Fault Refusal :=
  completes (s.setResultFlag x (s.reg y - s.reg x) (exceeds (s.reg y) (s.reg x)))

/-- `8xyE` SHL Vx: `(v[x] << 1) mod 256`, VF the bit shifted out; `y` plays no part (R170, R96). -/
def execShl (x _y : Reg) (s : State) : Host.Outcome State Fault Refusal :=
  completes (s.setResultFlag x (s.reg x <<< 1) (highBit (s.reg x)))

/-- `Cxkk` RND Vx, kk: the next random byte masked by `kk`; exactly one byte is consumed (R171; D15). -/
def execRnd (x : Reg) (kk : Byte) (s : State) : Host.Outcome State Fault Refusal :=
  completes (s.takeRandom.setReg x (s.randomByte &&& kk))

end Sys2Proof.Machine
end

