-- ==== Sys2Proof/Machine/ControlFlow.lean ====
section
/-! DEFINITION. Control flow: the meanings of spec/41_control_flow.md. During the execute phase `pc` holds the address
of the instruction (spec/10_state.md R24). -/

namespace Sys2Proof.Machine

/-- `00EE` RET: `StackUnderflow(pc)` when `sp = 0`; otherwise the popped address, advanced by 2 (R140;
spec/92_eei_decisions.md D6, D7). -/
def execRet (s : State) : Host.Outcome State Fault Refusal :=
  if s.sp.val = 0 then raises .stackUnderflow s.pc s else completes s.popReturn

/-- `1nnn` JP nnn: any target is accepted (R141, R148). -/
def execJp (nnn : Addr12) (s : State) : Host.Outcome State Fault Refusal :=
  redirects (s.setPc (pcOfAddr nnn))

/-- `2nnn` CALL nnn: `StackOverflow(pc)` when `sp = 15`; otherwise the Call's own address is pushed (R142; D6). -/
def execCall (nnn : Addr12) (s : State) : Host.Outcome State Fault Refusal :=
  if s.sp.val = Config.spMax then raises .stackOverflow s.pc s
  else redirects ((s.pushReturn s.pc).setPc (pcOfAddr nnn))

/-- `3xkk` SE Vx, kk (R143). -/
def execSeImm (x : Reg) (kk : Byte) (s : State) : Host.Outcome State Fault Refusal :=
  completes (s.skipIf (s.reg x == kk))

/-- `4xkk` SNE Vx, kk (R144). -/
def execSneImm (x : Reg) (kk : Byte) (s : State) : Host.Outcome State Fault Refusal :=
  completes (s.skipIf (s.reg x != kk))

/-- `5xy0` SE Vx, Vy; the low nibble is not examined (R145, R94; D3). -/
def execSeReg (x y : Reg) (_n : Nibble) (s : State) : Host.Outcome State Fault Refusal :=
  completes (s.skipIf (s.reg x == s.reg y))

/-- `9xy0` SNE Vx, Vy; the low nibble is not examined (R146, R94; D3). -/
def execSneReg (x y : Reg) (_n : Nibble) (s : State) : Host.Outcome State Fault Refusal :=
  completes (s.skipIf (s.reg x != s.reg y))

/-- `Bnnn` JP V0, nnn: `nnn + v[0]`, not reduced to 12 bits (R147; D23). -/
def execJpV0 (nnn : Addr12) (s : State) : Host.Outcome State Fault Refusal :=
  redirects (s.setPc (pcOfAddr nnn + pcOfByte (s.reg 0)))

end Sys2Proof.Machine
end

