-- ==== Sys2Proof/Machine/Display.lean ====
section
/-! DEFINITION. The framebuffer controller: the meanings of spec/44_display.md. Only these two instructions write a
pixel (R212). -/

namespace Sys2Proof.Machine

/-- The framebuffer being drawn on, and whether a pixel has gone from 1 to 0 so far. -/
abbrev Canvas := Framebuffer × Bool

/-- One lit sprite pixel at column `col`, row `row`: off the grid it is dropped (clip; spec/92_eei_decisions.md D11);
on the grid it collides if the pixel was 1, and the pixel is inverted (R211). -/
def plot (row col : Nat) (c : Canvas) : Canvas :=
  if row < Config.fbHeight ∧ col < Config.fbWidth then (c.1.flip row col, c.2 || c.1.pixel row col) else c

/-- One sprite row of 8 pixels, its leftmost at column `x0` (R211: `for c in 0 .. 7`). -/
def drawRow (x0 row : Nat) (b : Byte) (c : Canvas) : Canvas :=
  (List.range Config.spriteWidth).foldl (fun acc k => if spritePixel b k then plot row (x0 + k) acc else acc) c

/-- The sprite's rows downward from row `y0` (R211: `for r in 0 .. n-1`). -/
def drawRows (x0 y0 : Nat) : List Byte → Canvas → Canvas
  | [], c => c
  | b :: bs, c => drawRows x0 (y0 + 1) bs (drawRow x0 y0 b c)

/-- The canvas `Dxyn` leaves: the `n` bytes from `I` drawn at `(v[x] mod 64, v[y] mod 32)` (R211). -/
def spriteCanvas (x y : Reg) (n : Nat) (s : State) : Canvas :=
  drawRows (originX (s.reg x)) (originY (s.reg y)) (s.mem.readBytes (s.effAddr 0) n) (s.fb, false)

/-- `00E0` CLS: every pixel 0, and dirty (R210). -/
def execCls (s : State) : Host.Outcome State Fault Refusal :=
  completes (s.setPicture (Vector.replicate Config.fbHeight 0))

/-- `Dxyn` DRW Vx, Vy, n. The coordinates are read before VF is written; VF ends 1 exactly when some pixel went from
1 to 0; all `n` bytes are bounds-checked, and `n = 0` reads none (R211; D4, D11, D12, D25). -/
def execDrw (x y : Reg) (n : Nat) (s : State) : Host.Outcome State Fault Refusal :=
  withRange (s.effAddr 0) n s
    (completes ((s.setPicture (spriteCanvas x y n s).1).setFlag (spriteCanvas x y n s).2))

end Sys2Proof.Machine
end

