-- ==== Sys2Proof/Machine/IndexMemory.lean ====
section
/-! DEFINITION. Index register and memory instructions: the meanings of spec/43_index_memory.md. Every instruction
completes with `advance = true` or faults before its first write (R196, spec/20_memory.md R67); none modifies `I` as a
side effect. -/

namespace Sys2Proof.Machine

/-- `Annn` LD I, nnn (R190). -/
def execLdI (nnn : Addr12) (s : State) : Host.Outcome State Fault Refusal :=
  completes (s.setI (indexOfAddr nnn))

/-- `Fx1E` ADD I, Vx: `I <- (I + v[x]) mod 65536`, no flag (R191; spec/92_eei_decisions.md D10). -/
def execAddI (x : Reg) (s : State) : Host.Outcome State Fault Refusal :=
  completes (s.setI (s.I + indexOfByte (s.reg x)))

/-- `Fx29` LD F, Vx: `I <- v[x] × 5`; `v[x]` is not masked to a digit (R192). -/
def execLdF (x : Reg) (s : State) : Host.Outcome State Fault Refusal :=
  completes (s.setI (indexOfByte (s.reg x) * BitVec.ofNat Config.iBits Config.glyphBytes))

/-- `Fx33` LD B, Vx: hundreds at `I`, tens at `I + 1`, ones at `I + 2` (R193). -/
def execLdB (x : Reg) (s : State) : Host.Outcome State Fault Refusal :=
  withRange (s.effAddr 0) 3 s (completes (s.setMem (s.mem.writeBytes (s.effAddr 0) (bcdDigits (s.reg x)))))

/-- `Fx55` LD [I], Vx: `v[0]` to `v[x]` to `mem[I]` to `mem[I + x]` (R194). -/
def execLdMemVx (x : Reg) (s : State) : Host.Outcome State Fault Refusal :=
  withRange (s.effAddr 0) (x.val + 1) s (completes (s.setMem (s.mem.writeBytes (s.effAddr 0) (s.regsUpTo x))))

/-- `Fx65` LD Vx, [I]: `mem[I]` to `mem[I + x]` into `v[0]` to `v[x]` (R195). -/
def execLdVxMem (x : Reg) (s : State) : Host.Outcome State Fault Refusal :=
  withRange (s.effAddr 0) (x.val + 1) s (completes (s.setRegs (loadRegs s.mem (s.effAddr 0) s.v (x.val + 1))))

end Sys2Proof.Machine
end

