-- ==== Sys2Proof/Machine/KeypadTimers.lean ====
section
/-! DEFINITION. Keypad and timer instructions: the meanings of spec/45_keypad_timers.md. The keypad is the snapshot of
this tick (spec/10_state.md R31); the timers have already been run in this tick (spec/40_tick_cycle.md R120). -/

namespace Sys2Proof.Machine

/-- `Ex9E` SKP Vx: skip if key `v[x]` is down; `KeyIndexOutOfRange(v[x])` above 15 (R230; spec/92_eei_decisions.md
D14). -/
def execSkp (x : Reg) (s : State) : Host.Outcome State Fault Refusal :=
  if keyIndexBad (s.reg x) then raises .keyIndexOutOfRange (infoOfByte (s.reg x)) s
  else completes (s.skipIf (keyDown s.key (s.reg x).toNat))

/-- `ExA1` SKNP Vx: skip if key `v[x]` is up; `KeyIndexOutOfRange(v[x])` above 15 (R231; D14). -/
def execSknp (x : Reg) (s : State) : Host.Outcome State Fault Refusal :=
  if keyIndexBad (s.reg x) then raises .keyIndexOutOfRange (infoOfByte (s.reg x)) s
  else completes (s.skipIf (!keyDown s.key (s.reg x).toNat))

/-- `Fx07` LD Vx, DT (R232). -/
def execLdVxDt (x : Reg) (s : State) : Host.Outcome State Fault Refusal :=
  completes (s.setReg x s.dt)

/-- `Fx0A` LD Vx, K: the least key that is down; with none down `pc` stays and the next tick fetches the same
instruction (R233). -/
def execLdVxK (x : Reg) (s : State) : Host.Outcome State Fault Refusal :=
  match lowestKeyDown s.key with
  | some k => completes (s.setReg x (BitVec.ofNat Config.regBits k))
  | none => redirects s

/-- `Fx15` LD DT, Vx (R234). -/
def execLdDtVx (x : Reg) (s : State) : Host.Outcome State Fault Refusal :=
  completes (s.setDt (s.reg x))

/-- `Fx18` LD ST, Vx (R235). -/
def execLdStVx (x : Reg) (s : State) : Host.Outcome State Fault Refusal :=
  completes (s.setSt (s.reg x))

end Sys2Proof.Machine
end

