-- ==== Sys2Proof/Machine/Tick.lean ====
section
/-! DEFINITION. The tick (spec/40_tick_cycle.md R127): count, timers, fetch, decode and execute, advance, in that
order (R120; spec/90_conflicts.md C1). -/

namespace Sys2Proof.Machine

/-- Phases 1 and 2 (R122, R123). -/
def State.beginTick (s : State) : State := s.countCycle.runTimers

/-- Phases 4 and 5 on a fetched word: a word that is no instruction raises `UnknownOpcode(word)` (R125, R97). -/
def runWord (w : Word) (s : State) : Host.Outcome State Fault Refusal :=
  match decodeWord w with
  | some i => exec i s
  | none => raises .unknownOpcode w s

/-- Phases 3 to 5: a fetch that needs an address of 4096 or more raises `MemoryOutOfRange(max(pc, 4096))` with
`current_instruction` unchanged (R124). -/
def fetchAndRun (s : State) : Host.Outcome State Fault Refusal :=
  withRange s.pc.toNat Config.instrBytes s (runWord s.wordAtPc (s.latch s.wordAtPc))

/-- One tick. A halted machine's tick changes nothing (R121). -/
def tick (s : State) : Host.Outcome State Fault Refusal :=
  if s.halted then .next s else fetchAndRun s.beginTick

/-- Can the fetch read both bytes of an instruction at `pc` (R124)? -/
def State.fetchable (s : State) : Bool := decide (s.pc.toNat + Config.instrBytes ≤ Config.memSize)

/-- A running machine whose fetch can succeed: the session's halt lifted, and `pc` moved to the entry point if no
instruction word can be read where it stands. Nothing changes in a running machine with a readable `pc`. -/
def State.readyToFetch (s : State) : State :=
  { s with
    halted := false
    pc := if s.fetchable then s.pc else BitVec.ofNat Config.pcBits Config.loadOffset }

/-- The word placed where the next fetch reads it, high byte first (R62). -/
def State.placeWord (s : State) (w : Word) : State :=
  s.setMem (s.mem.writeBytes s.pc.toNat (bytesOfWord w))

end Sys2Proof.Machine
end

