-- ==== Sys2Proof/Machine/HostOps.lean ====
section
/-! DEFINITION. The host's operations (spec/70_reset_and_hazards.md R290 to R295) and the core's outputs
(spec/10_state.md R38). The host acts between ticks only (R297): each operation is one whole transition. -/

namespace Sys2Proof.Machine

/-- `reset()`: every field of the core at its reset value, at any time, also on a halted machine (R290). The random
source is outside the core and is neither seeded nor rewound (R292), so the supply stays where it is. -/
def hostReset (s : State) : State :=
  { State.reset with rndInjected := s.rndInjected, rndDrawn := s.rndDrawn }

/-- Has a tick run since the last reset (R32: every tick of a running machine counts)? -/
def State.ticked (s : State) : Bool := decide (0 < s.cycleCount) || s.halted

/-- `load(bytes)`: at most 3584 bytes copied to 0x200; a larger image changes nothing and fails; refused after the
first tick (R293, R294; spec/92_eei_decisions.md D19). -/
def hostLoad (image : List Byte) (s : State) : Host.Outcome State Fault Refusal :=
  if s.ticked then .refused .loadAfterFirstTick
  else if imageWellFormed image then .next (s.setMem (s.mem.writeBytes Config.loadOffset image))
  else .fault (.imageTooLarge image.length)

/-- The host presents a keypad snapshot; the next tick sees it (R31, R295). -/
def hostWriteKeys (key : Keypad) (s : State) : State := { s with key := key }

/-- The host injects random bytes after those already waiting (R171, R269). -/
def hostSupplyRandom (bytes : List Byte) (s : State) : State := { s with rndInjected := s.rndInjected ++ bytes }

/-- `ClearDirty` (R30, R295; spec/92_eei_decisions.md D18). -/
def hostClearDirty (s : State) : State := { s with dirty := false }

/-- What the host may do between ticks, and the tick itself (R295). Reads are `State.outputs`. -/
inductive HostOp where
  | reset
  | load (image : List Byte)
  | tick
  | writeKeys (key : Keypad)
  | supplyRandom (bytes : List Byte)
  | clearDirty
  deriving DecidableEq, Repr

/-- The effect of one host operation. -/
def hostDo : HostOp → State → Host.Outcome State Fault Refusal
  | .reset, s => .next (hostReset s)
  | .load image, s => hostLoad image s
  | .tick, s => step s
  | .writeKeys key, s => .next (hostWriteKeys key s)
  | .supplyRandom bytes, s => .next (hostSupplyRandom bytes s)
  | .clearDirty, s => .next (hostClearDirty s)

/-- A session: host operations one after the other, up to the first that fails or is refused (R294, R297). -/
def hostRun : List HostOp → State → Host.Outcome State Fault Refusal
  | [], s => .next s
  | op :: ops, s =>
    match hostDo op s with
    | .next s' => hostRun ops s'
    | .fault r => .fault r
    | .refused r => .refused r

/-- The core's outputs (R38): functions of the state. -/
structure Outputs where
  fb : Framebuffer
  dirty : Bool
  soundTimer : Byte
  trace : Word
  halted : Bool
  faultCause : Nat
  faultInfo : Word
  deriving DecidableEq, Repr

/-- What the host reads between ticks (R38, R267, R268, R270). -/
def State.outputs (s : State) : Outputs where
  fb := s.fb
  dirty := s.dirty
  soundTimer := s.st
  trace := s.currentInstruction
  halted := s.halted
  faultCause := s.faultCause.code
  faultInfo := s.faultInfo

/-- The tone is on while the sound timer is above 0 (R28, R268). -/
def State.tone (s : State) : Bool := decide (0 < s.st.toNat)

end Sys2Proof.Machine
end

