-- ==== Sys2Proof/Safety.lean ====
section
/-! DEFINITION. What claims are stated in: a running machine and the invariant of the state, what it is to be at rest
(spec/70_reset_and_hazards.md R300), a safe run, and the access matrix of spec/10_state.md R40 as functions. -/

namespace Sys2Proof.Machine

/-- A machine whose session has not ended (R34). A claim treats a halted state as gone wrong
(spec/60_exceptions.md R262, spec/93_implementation_defined.md U23). -/
def State.running (s : State) : Prop := s.halted = false

/-- A step that does not end in a fault. -/
def SafeStep (s t : State) : Prop := step s = .next t ∧ t.running

/-- A run of `n` safe steps. -/
def SafeRun : Nat → State → State → Prop
  | 0, s, t => s = t
  | n + 1, s, t => ∃ u, SafeStep s u ∧ SafeRun n u t

/-- At rest: running, with the word at `pc` a jump to `pc` (R300). The spec's own suggestion, not hardware behaviour
(spec/92_eei_decisions.md D21). -/
def State.atRest (s : State) : Prop :=
  s.running ∧ s.pc.toNat + 1 ≤ Config.memSize - 1 ∧ s.wordAtPc = 0x1000#16 ||| s.pc

/-- What holds of every state a session reaches and every operation keeps: memory is in canonical form (and so names
no address of 4096 or more, R60, R65); `pc` is at most 0x10FE (R24); a slot of the stack is at most 0x0FFE, the last
address from which a word can be fetched, and slot 0 is 0, since it is never written (R25); the fault fields say "no fault" exactly while the machine runs,
and a tick never leaves the cause that belongs to `load` (R34, R250). -/
structure State.Inv (s : State) : Prop where
  memory : s.mem.wf = true
  pcBound : s.pc.toNat ≤ Config.memSize - 1 + Config.regMax
  stackBound : ∀ k : Fin Config.stackSlots, s.stack[k.val].toNat ≤ Config.memSize - Config.instrBytes
  slotZero : s.stack[0] = 0
  noFault : s.halted = false → s.faultCause = .noFault ∧ s.faultInfo = 0
  fault : s.halted = true → s.faultCause ≠ .noFault ∧ s.faultCause ≠ .imageTooLarge

/-! ### The access matrix (R40) -/

/-- The general registers an instruction may write: its destination, VF for the six flag-setting instructions (R22),
and `v[0]` to `v[x]` for the register load. -/
def writesReg : Instr → Reg → Bool
  | .ldImm x _, k | .addImm x _, k | .ldReg x _, k | .orReg x _, k | .andReg x _, k | .xorReg x _, k
  | .rnd x _, k | .ldVxDt x, k | .ldVxK x, k => k == x
  | .addReg x _, k | .subReg x _, k | .shr x _, k | .subnReg x _, k | .shl x _, k => k == x || k == Config.flagReg
  | .drw _ _ _, k => k == Config.flagReg
  | .ldVxMem x, k => decide (k.val ≤ x.val)
  | .cls, _ | .ret, _ | .jp _, _ | .call _, _ | .seImm _ _, _ | .sneImm _ _, _ | .seReg _ _ _, _
  | .sneReg _ _ _, _ | .ldI _, _ | .jpV0 _, _ | .skp _, _ | .sknp _, _ | .ldDtVx _, _ | .ldStVx _, _ | .addI _, _
  | .ldF _, _ | .ldB _, _ | .ldMemVx _, _ => false

/-- How many bytes an instruction stores, starting at its effective address `I` (R193, R194). -/
def storeLength : Instr → Nat
  | .ldB _ => 3
  | .ldMemVx x => x.val + 1
  | .cls | .ret | .jp _ | .call _ | .seImm _ _ | .sneImm _ _ | .seReg _ _ _ | .ldImm _ _ | .addImm _ _ | .ldReg _ _
  | .orReg _ _ | .andReg _ _ | .xorReg _ _ | .addReg _ _ | .subReg _ _ | .shr _ _ | .subnReg _ _ | .shl _ _
  | .sneReg _ _ _ | .ldI _ | .jpV0 _ | .rnd _ _ | .drw _ _ _ | .skp _ | .sknp _ | .ldVxDt _ | .ldVxK _ | .ldDtVx _
  | .ldStVx _ | .addI _ | .ldF _ | .ldVxMem _ => 0

/-- Byte `k` of those an instruction stores: a decimal digit (R193) or a register (R194). -/
def storedByte : Instr → State → Nat → Byte
  | .ldB x, s, k =>
    BitVec.ofNat Config.regBits (if k = 0 then (s.reg x).toNat / 100 else if k = 1 then (s.reg x).toNat / 10 % 10
      else (s.reg x).toNat % 10)
  | .ldMemVx _, s, k => s.v.toList.getD k 0
  | .cls, _, _ | .ret, _, _ | .jp _, _, _ | .call _, _, _ | .seImm _ _, _, _ | .sneImm _ _, _, _ | .seReg _ _ _, _, _
  | .ldImm _ _, _, _ | .addImm _ _, _, _ | .ldReg _ _, _, _ | .orReg _ _, _, _ | .andReg _ _, _, _ | .xorReg _ _, _, _
  | .addReg _ _, _, _ | .subReg _ _, _, _ | .shr _ _, _, _ | .subnReg _ _, _, _ | .shl _ _, _, _
  | .sneReg _ _ _, _, _ | .ldI _, _, _ | .jpV0 _, _, _ | .rnd _ _, _, _ | .drw _ _ _, _, _ | .skp _, _, _
  | .sknp _, _, _ | .ldVxDt _, _, _ | .ldVxK _, _, _ | .ldDtVx _, _, _ | .ldStVx _, _, _ | .addI _, _, _
  | .ldF _, _, _ | .ldVxMem _, _, _ => 0

/-- What address `a` holds after an instruction has stored its bytes: the stored byte, or what it held before. -/
def byteAfter (i : Instr) (s : State) (a : Nat) : Byte :=
  if s.effAddr 0 ≤ a ∧ a < s.effAddr 0 + storeLength i then storedByte i s (a - s.effAddr 0) else s.mem.read a

/-- Instructions executed one after the other. -/
def execAll : List Instr → State → Host.Outcome State Fault Refusal
  | [], s => .next s
  | i :: is, s =>
    match exec i s with
    | .next t => execAll is t
    | .fault r => .fault r
    | .refused r => .refused r

/-- How an instruction that does not fault leaves `pc` (R40's pc column, R126). -/
inductive PcEffect where
  /-- `pc + 2`. -/
  | advances
  /-- `pc + 2` or `pc + 4`. -/
  | maySkip
  /-- `pc` or `pc + 2`. -/
  | mayHold
  /-- Set by the instruction. -/
  | sets
  deriving DecidableEq, Repr

/-- The pc column of R40. -/
def pcEffect : Instr → PcEffect
  | .seImm _ _ | .sneImm _ _ | .seReg _ _ _ | .sneReg _ _ _ | .skp _ | .sknp _ => .maySkip
  | .ldVxK _ => .mayHold
  | .ret | .jp _ | .call _ | .jpV0 _ => .sets
  | .cls | .ldImm _ _ | .addImm _ _ | .ldReg _ _ | .orReg _ _ | .andReg _ _ | .xorReg _ _ | .addReg _ _
  | .subReg _ _ | .shr _ _ | .subnReg _ _ | .shl _ _ | .ldI _ | .rnd _ _ | .drw _ _ _ | .ldVxDt _ | .ldDtVx _
  | .ldStVx _ | .addI _ | .ldF _ | .ldB _ | .ldMemVx _ | .ldVxMem _ => .advances

/-- The sprite of `Dxyn` on the grid: is the pixel at (col, row) one of its 1 bits (R211)? The origin is
`(v[x] mod 64, v[y] mod 32)`, row `r` of the sprite is the byte at `I + r`, and its bit 7 is leftmost; what lies off
the 64×32 grid is no pixel. -/
def spriteLit (x y : Reg) (n : Nat) (s : State) (row col : Nat) : Bool :=
  decide ((s.reg y).toNat % Config.fbHeight ≤ row ∧ row < (s.reg y).toNat % Config.fbHeight + n ∧
    (s.reg x).toNat % Config.fbWidth ≤ col ∧ col < (s.reg x).toNat % Config.fbWidth + Config.spriteWidth) &&
  (s.mem.read (s.effAddr (row - (s.reg y).toNat % Config.fbHeight))).getLsbD
    (Config.spriteWidth - 1 - (col - (s.reg x).toNat % Config.fbWidth))

end Sys2Proof.Machine
end

