-- ==== Sys2Proof/Certificates/Slice0/Obligations.lean ====
section
/-! DEFINITION. The statements for the provers. Where a statement rests on a decision of spec/92_eei_decisions.md (the
spec's own choice, not the source's word) or on an entry of notes/assumptions, its docstring says so:
`D<n>` is a row of spec/92_eei_decisions.md, `C<n>` an entry of spec/90_conflicts.md, `<n>.md` a file of
notes/assumptions. Arithmetic is written on natural numbers, as the spec's pseudocode is (spec/00_scope.md R8). -/

open Sys2Proof Sys2Proof.Machine

/-! ### Encoding -/

/-- Decoding the word of a well-formed instruction gives it back, every operand at every value its field admits.
Opcode numbers and dispatch widths are the spec's decisions D2 and D3. -/
def Obligations.DecodeOfEncodeIsIdentity : Prop :=
  ∀ i : Instr, i.wellFormed = true → decodeWord (encode i) = some i

/-- An instruction word encodes exactly one instruction, which is well-formed, and encoding that gives the same 16 bits:
no bit of a word is dropped, the unused nibbles of R96 included. Rests on D2 and D3. -/
def Obligations.EncodeOfDecodeIsIdentity : Prop :=
  ∀ (w : Word) (i : Instr), decodeWord w = some i → i.wellFormed = true ∧ encode i = w

/-- The rows of the opcode map that accept a word are exactly one, the decoded instruction's, or none, and then the word
is unknown (property Q1 of spec/95_test_vectors.md). Rests on D2 and D3. -/
def Obligations.OpcodeTableAgreesWithDecoder : Prop :=
  ∀ w : Word,
    (opcodeTable.filter fun r => r.accepts w).map OpcodeRow.mnemonic = (decodeWord w).toList.map Instr.mnemonic

/-- The unknown words: class 0 but for 00E0 and 00EE; class 8 with low nibble 8 to D or F; class E with low byte other
than 9E and A1; class F with low byte other than the nine. Rests on D2 and D3. -/
def Obligations.UnknownWordsAreExactlyTheListed : Prop :=
  ∀ w : Word,
    decodeWord w = none ↔
      (w.toNat / 4096 = 0 ∧ w.toNat ≠ 0x00E0 ∧ w.toNat ≠ 0x00EE) ∨
      (w.toNat / 4096 = 8 ∧ w.toNat % 16 ∈ [0x8, 0x9, 0xA, 0xB, 0xC, 0xD, 0xF]) ∨
      (w.toNat / 4096 = 0xE ∧ w.toNat % 256 ∉ [0x9E, 0xA1]) ∨
      (w.toNat / 4096 = 0xF ∧ w.toNat % 256 ∉ [0x07, 0x0A, 0x15, 0x18, 0x1E, 0x29, 0x33, 0x55, 0x65])

/-- Words written out from the spec's patterns decode to the instructions they stand for, at least one of each family.
Rests on D2; that the low nibble of 534F is not examined, on D3. -/
def Obligations.SampleWordsDecode : Prop :=
  decodeWord 0x00E0 = some .cls ∧ decodeWord 0x00EE = some .ret ∧ decodeWord 0x1234 = some (.jp 0x234) ∧
  decodeWord 0x2ABC = some (.call 0xABC) ∧ decodeWord 0x534F = some (.seReg 3 4 0xF) ∧
  decodeWord 0x6A2F = some (.ldImm 0xA 0x2F) ∧ decodeWord 0x8127 = some (.subnReg 1 2) ∧
  decodeWord 0xA300 = some (.ldI 0x300) ∧ decodeWord 0xC30F = some (.rnd 3 0x0F) ∧
  decodeWord 0xD125 = some (.drw 1 2 5) ∧ decodeWord 0xE4A1 = some (.sknp 4) ∧ decodeWord 0xF20A = some (.ldVxK 2) ∧
  decodeWord 0xF165 = some (.ldVxMem 1)

/-- The patterns of the opcode map, written as arithmetic, for every instruction and every operand: the words `1nnn`,
`3xkk`, `8xy4`, `Dxyn`, `Fx65` and so on decode to the instructions they stand for, each field read from its own four,
eight or twelve bits. The opcode numbers are D2, the nibbles that are not examined D3. -/
def Obligations.EveryPatternDecodes : Prop :=
  ∀ (x y : Reg) (n : Nibble) (kk : Byte) (nnn : Addr12),
    decodeWord 0x00E0 = some .cls ∧
    decodeWord 0x00EE = some .ret ∧
    decodeWord (BitVec.ofNat 16 (0x1000 + nnn.toNat)) = some (.jp nnn) ∧
    decodeWord (BitVec.ofNat 16 (0x2000 + nnn.toNat)) = some (.call nnn) ∧
    decodeWord (BitVec.ofNat 16 (0x3000 + 256 * x.val + kk.toNat)) = some (.seImm x kk) ∧
    decodeWord (BitVec.ofNat 16 (0x4000 + 256 * x.val + kk.toNat)) = some (.sneImm x kk) ∧
    decodeWord (BitVec.ofNat 16 (0x5000 + 256 * x.val + 16 * y.val + n.toNat)) = some (.seReg x y n) ∧
    decodeWord (BitVec.ofNat 16 (0x6000 + 256 * x.val + kk.toNat)) = some (.ldImm x kk) ∧
    decodeWord (BitVec.ofNat 16 (0x7000 + 256 * x.val + kk.toNat)) = some (.addImm x kk) ∧
    decodeWord (BitVec.ofNat 16 (0x8000 + 256 * x.val + 16 * y.val)) = some (.ldReg x y) ∧
    decodeWord (BitVec.ofNat 16 (0x8001 + 256 * x.val + 16 * y.val)) = some (.orReg x y) ∧
    decodeWord (BitVec.ofNat 16 (0x8002 + 256 * x.val + 16 * y.val)) = some (.andReg x y) ∧
    decodeWord (BitVec.ofNat 16 (0x8003 + 256 * x.val + 16 * y.val)) = some (.xorReg x y) ∧
    decodeWord (BitVec.ofNat 16 (0x8004 + 256 * x.val + 16 * y.val)) = some (.addReg x y) ∧
    decodeWord (BitVec.ofNat 16 (0x8005 + 256 * x.val + 16 * y.val)) = some (.subReg x y) ∧
    decodeWord (BitVec.ofNat 16 (0x8006 + 256 * x.val + 16 * y.val)) = some (.shr x y) ∧
    decodeWord (BitVec.ofNat 16 (0x8007 + 256 * x.val + 16 * y.val)) = some (.subnReg x y) ∧
    decodeWord (BitVec.ofNat 16 (0x800E + 256 * x.val + 16 * y.val)) = some (.shl x y) ∧
    decodeWord (BitVec.ofNat 16 (0x9000 + 256 * x.val + 16 * y.val + n.toNat)) = some (.sneReg x y n) ∧
    decodeWord (BitVec.ofNat 16 (0xA000 + nnn.toNat)) = some (.ldI nnn) ∧
    decodeWord (BitVec.ofNat 16 (0xB000 + nnn.toNat)) = some (.jpV0 nnn) ∧
    decodeWord (BitVec.ofNat 16 (0xC000 + 256 * x.val + kk.toNat)) = some (.rnd x kk) ∧
    decodeWord (BitVec.ofNat 16 (0xD000 + 256 * x.val + 16 * y.val + n.toNat)) = some (.drw x y n.toNat) ∧
    decodeWord (BitVec.ofNat 16 (0xE09E + 256 * x.val)) = some (.skp x) ∧
    decodeWord (BitVec.ofNat 16 (0xE0A1 + 256 * x.val)) = some (.sknp x) ∧
    decodeWord (BitVec.ofNat 16 (0xF007 + 256 * x.val)) = some (.ldVxDt x) ∧
    decodeWord (BitVec.ofNat 16 (0xF00A + 256 * x.val)) = some (.ldVxK x) ∧
    decodeWord (BitVec.ofNat 16 (0xF015 + 256 * x.val)) = some (.ldDtVx x) ∧
    decodeWord (BitVec.ofNat 16 (0xF018 + 256 * x.val)) = some (.ldStVx x) ∧
    decodeWord (BitVec.ofNat 16 (0xF01E + 256 * x.val)) = some (.addI x) ∧
    decodeWord (BitVec.ofNat 16 (0xF029 + 256 * x.val)) = some (.ldF x) ∧
    decodeWord (BitVec.ofNat 16 (0xF033 + 256 * x.val)) = some (.ldB x) ∧
    decodeWord (BitVec.ofNat 16 (0xF055 + 256 * x.val)) = some (.ldMemVx x) ∧
    decodeWord (BitVec.ofNat 16 (0xF065 + 256 * x.val)) = some (.ldVxMem x)

/-- Bytes are decoded two at a time, the high byte first; fewer than two bytes are no instruction. -/
def Obligations.ByteDecodingIsBigEndian : Prop :=
  (∀ (hi lo : Byte) (rest : List Byte),
    decode (hi :: lo :: rest) =
      match decodeWord (BitVec.ofNat 16 (256 * hi.toNat + lo.toNat)) with
      | some i => .instr i rest
      | none => .unknownOpcode (BitVec.ofNat 16 (256 * hi.toNat + lo.toNat)) rest) ∧
  decode [] = .truncated ∧ ∀ b : Byte, decode [b] = .truncated

/-! ### The tick -/

/-- When the machine runs and the bytes at `pc` decode to `i`, a step is `exec i` of the state after phases 1 to 3:
`cycle_count` counted, the timers decremented on a ninth tick, `current_instruction` the fetched word; nothing is added
around `exec`. That `exec` runs after the timers, with nothing after it, is C1 (31.md); the bound on `pc` is D4 (8.md),
the free alignment D5 (9.md), the unbounded count D16 (17.md). -/
def Obligations.StepRunsTheDecodedInstruction : Prop :=
  ∀ (s : State) (w : Word) (i : Instr),
    s.halted = false → s.pc.toNat + 1 < 4096 →
    w.toNat = 256 * (s.mem.read s.pc.toNat).toNat + (s.mem.read (s.pc.toNat + 1)).toNat →
    decodeWord w = some i →
    step s = exec i
      { s with
        cycleCount := s.cycleCount + 1
        dt := if (s.cycleCount + 1) % 9 = 0 then BitVec.ofNat 8 (s.dt.toNat - 1) else s.dt
        st := if (s.cycleCount + 1) % 9 = 0 then BitVec.ofNat 8 (s.st.toNat - 1) else s.st
        currentInstruction := w }

/-- When the bytes at `pc` are no instruction, the tick counts, runs the timers, records the word and halts with
`UnknownOpcode(word)`; `pc` stays and nothing else changes. What the halted state holds, the count and the decrement of
the faulting tick included, is D17 (18.md); that the timers come before the execute phase is C1 (31.md); the bound on
`pc` is D4 (8.md), the free alignment D5 (9.md), the unbounded count D16 (17.md). -/
def Obligations.StepOnUnknownWordHalts : Prop :=
  ∀ (s : State) (w : Word),
    s.halted = false → s.pc.toNat + 1 < 4096 →
    w.toNat = 256 * (s.mem.read s.pc.toNat).toNat + (s.mem.read (s.pc.toNat + 1)).toNat →
    decodeWord w = none →
    step s = .next
      { s with
        cycleCount := s.cycleCount + 1
        dt := if (s.cycleCount + 1) % 9 = 0 then BitVec.ofNat 8 (s.dt.toNat - 1) else s.dt
        st := if (s.cycleCount + 1) % 9 = 0 then BitVec.ofNat 8 (s.st.toNat - 1) else s.st
        currentInstruction := w
        halted := true, faultCause := .unknownOpcode, faultInfo := w }

/-- When the fetch needs an address of 4096 or more, the tick counts, runs the timers and halts with
`MemoryOutOfRange(max(pc, 4096))`; `current_instruction` and `pc` stay. The fault is D4 (8.md), the halted state D17
(18.md); that the timers come before the fetch is C1 (31.md), the unbounded count D16 (17.md). -/
def Obligations.StepWithPcOutOfRangeHalts : Prop :=
  ∀ s : State,
    s.halted = false → 4096 ≤ s.pc.toNat + 1 →
    step s = .next
      { s with
        cycleCount := s.cycleCount + 1
        dt := if (s.cycleCount + 1) % 9 = 0 then BitVec.ofNat 8 (s.dt.toNat - 1) else s.dt
        st := if (s.cycleCount + 1) % 9 = 0 then BitVec.ofNat 8 (s.st.toNat - 1) else s.st
        halted := true, faultCause := .memoryOutOfRange, faultInfo := BitVec.ofNat 16 (max s.pc.toNat 4096) }

/-- A tick of a halted machine changes nothing, and over any sequence of host operations without a reset a halted
machine stays halted with its fault; only what the host itself writes (`key`, `dirty`, injected random bytes) can
change. The halted state is D17 (18.md); what the host may write is D15, D18 and D20 (2.md, 19.md, 6.md), and that it
may not load is D19 (20.md). -/
def Obligations.OnlyResetLeavesTheHaltedState : Prop :=
  (∀ s : State, s.halted = true → step s = .next s) ∧
  ∀ (ops : List HostOp) (s t : State),
    s.halted = true → HostOp.reset ∉ ops → hostRun ops s = .next t →
    t = { s with dirty := t.dirty, key := t.key, rndInjected := t.rndInjected }

/-- The step function is total: every tick of every state answers a next state (R9, R301, both derived by the spec).
That a tick which faults is such a step, into the halted state, rests on D4, D14 and D17 (8.md, 16.md, 18.md); that the
model answers it as a next state is 7.md. -/
def Obligations.StepAlwaysAnswersNext : Prop := ∀ s : State, ∃ t : State, step s = .next t

/-- The count and the timer cadence, in every tick of a running machine: `cycle_count` grows by 1; each timer goes down
by 1, never below 0, exactly when the new count is a multiple of 9, whatever instruction the tick executes; only the
instruction that sets a timer overrides that, and the value it sets is not decremented in its tick. That a tick which
faults keeps its count and its decrement is D17 (18.md), and that a fetch at 4095 or above is such a
tick, D4 (8.md); that the cadence comes before the execute phase is C1 (31.md); the unbounded count is D16 (17.md). -/
def Obligations.TimersCountDownEveryNinthTick : Prop :=
  ∀ s : State, s.halted = false → ∃ t : State,
    step s = .next t ∧ t.cycleCount = s.cycleCount + 1 ∧
    ((s.pc.toNat + 1 < 4096 → ∀ x, decodeWord s.wordAtPc ≠ some (.ldDtVx x)) →
      t.dt.toNat = if (s.cycleCount + 1) % 9 = 0 then s.dt.toNat - 1 else s.dt.toNat) ∧
    ((s.pc.toNat + 1 < 4096 → ∀ x, decodeWord s.wordAtPc ≠ some (.ldStVx x)) →
      t.st.toNat = if (s.cycleCount + 1) % 9 = 0 then s.st.toNat - 1 else s.st.toNat) ∧
    (∀ x, s.pc.toNat + 1 < 4096 → decodeWord s.wordAtPc = some (.ldDtVx x) → t.dt = s.reg x) ∧
    ∀ x, s.pc.toNat + 1 < 4096 → decodeWord s.wordAtPc = some (.ldStVx x) → t.st = s.reg x

/-- `n` ticks of a machine at rest, from any count `c`: it stays at rest at the same `pc`, `cycle_count` grows by `n`,
each timer falls by the number of multiples of 9 passed, `(c + n) / 9 - c / 9`, and stops at 0, and only the trace word
changes besides. "At rest" is the spec's suggestion (D21, 21.md), its jump's number D2 (3.md); the unbounded count is
D16 (17.md). -/
def Obligations.TicksAtRestOnlyRunTheTimers : Prop :=
  ∀ (n : Nat) (s : State), s.atRest → ∃ t : State,
    Sys2Proof.core.run n s = .next t ∧ t.atRest ∧
    t = { s with
      cycleCount := s.cycleCount + n
      dt := BitVec.ofNat 8 (s.dt.toNat - ((s.cycleCount + n) / 9 - s.cycleCount / 9))
      st := BitVec.ofNat 8 (s.st.toNat - ((s.cycleCount + n) / 9 - s.cycleCount / 9))
      currentInstruction := t.currentInstruction }

/-- Adding a multiple of 9 to `cycle_count` changes nothing but `cycle_count` itself: only its remainder modulo 9
affects behaviour. The unbounded counter is D16. -/
def Obligations.OnlyTheCountModuloNineMatters : Prop :=
  ∀ (k : Nat) (s t : State), step s = .next t →
    step { s with cycleCount := s.cycleCount + 9 * k } = .next { t with cycleCount := t.cycleCount + 9 * k }

/-- `current_instruction` is the word of the latest fetch that succeeded, 0 after reset, and never affects behaviour:
two states that differ in it alone step to states that differ in it alone. (When a fetch fails is D4; that a halted
machine fetches nothing, D17.) -/
def Obligations.TraceWordIsPurelyObservational : Prop :=
  State.reset.currentInstruction = 0 ∧ (∀ s : State, s.outputs.trace = s.currentInstruction) ∧
  (∀ s t : State, step s = .next t →
    t.currentInstruction =
      if s.halted = false ∧ s.pc.toNat + 1 < 4096 then s.wordAtPc else s.currentInstruction) ∧
  ∀ (s t : State) (c : Word), step s = .next t →
    ∃ d : Word, step { s with currentInstruction := c } = .next { t with currentInstruction := d }

/-! ### Reset, the invariant, the host -/

/-- The reset values, and memory after reset byte by byte: the font, then zeros; and the host's reset, from any state, a
halted one included, leaves every field of the core at them and the random supply where it was. The font's bytes are
D13 (1.md), `halted` and the fault fields D17 (18.md), the core's copy of the keypad D20 (6.md); the random supply's two
fields are the model's own (2.md, 28.md). -/
def Obligations.ResetLeavesTheSpecifiedValues : Prop :=
  (∀ x : Reg, State.reset.reg x = 0) ∧ State.reset.I = 0 ∧ State.reset.pc = 0x0200 ∧ State.reset.sp = 0 ∧
  (∀ k : Fin 16, State.reset.stack[k.val] = 0) ∧ State.reset.dt = 0 ∧ State.reset.st = 0 ∧
  (∀ row col, State.reset.fb.pixel row col = false) ∧ State.reset.dirty = false ∧ State.reset.key = 0 ∧
  State.reset.cycleCount = 0 ∧ State.reset.currentInstruction = 0 ∧ State.reset.halted = false ∧
  State.reset.faultCause.code = 0 ∧ State.reset.faultInfo = 0 ∧
  State.reset.mem.readBytes 0x000 40 =
    [0xF0, 0x90, 0x90, 0x90, 0xF0, 0x20, 0x60, 0x20, 0x20, 0x70, 0xF0, 0x10, 0xF0, 0x80, 0xF0, 0xF0, 0x10, 0xF0, 0x10, 0xF0,
     0x90, 0x90, 0xF0, 0x10, 0x10, 0xF0, 0x80, 0xF0, 0x10, 0xF0, 0xF0, 0x80, 0xF0, 0x90, 0xF0, 0xF0, 0x10, 0x20, 0x40, 0x40] ∧
  State.reset.mem.readBytes 0x028 40 =
    [0xF0, 0x90, 0xF0, 0x90, 0xF0, 0xF0, 0x90, 0xF0, 0x10, 0xF0, 0xF0, 0x90, 0xF0, 0x90, 0x90, 0xE0, 0x90, 0xE0, 0x90, 0xE0,
     0xF0, 0x80, 0x80, 0x80, 0xF0, 0xE0, 0x90, 0x90, 0x90, 0xE0, 0xF0, 0x80, 0xF0, 0x80, 0xF0, 0xF0, 0x80, 0xF0, 0x80, 0x80] ∧
  (∀ a, 0x050 ≤ a → a < 4096 → State.reset.mem.read a = 0) ∧
  ∀ s : State, ∃ t : State, hostDo .reset s = .next t ∧
    t.mem = State.reset.mem ∧ (∀ x : Reg, t.reg x = 0) ∧ t.I = 0 ∧ t.pc = 0x0200 ∧ t.sp = 0 ∧
    (∀ k : Fin 16, t.stack[k.val] = 0) ∧ t.dt = 0 ∧ t.st = 0 ∧ (∀ row col, t.fb.pixel row col = false) ∧
    t.dirty = false ∧ t.key = 0 ∧ t.cycleCount = 0 ∧ t.currentInstruction = 0 ∧ t.halted = false ∧
    t.faultCause.code = 0 ∧ t.faultInfo = 0 ∧ t.rndInjected = s.rndInjected ∧ t.rndDrawn = s.rndDrawn

/-- What the host's other inputs write, in any state, and nothing besides: the keypad is the snapshot presented, key by
key (D20, 6.md); `dirty` is cleared (D18, 19.md); injected random bytes wait, in order, after those already waiting
(D15, 2.md). -/
def Obligations.HostInputsWriteOnlyTheirField : Prop :=
  ∀ (s : State) (key : Keypad) (bytes : List Byte), ∃ t u w : State,
    hostDo (.writeKeys key) s = .next t ∧ (∀ k, t.key.getLsbD k = key.getLsbD k) ∧ t = { s with key := t.key } ∧
    hostDo .clearDirty s = .next u ∧ u.dirty = false ∧ u = { s with dirty := u.dirty } ∧
    hostDo (.supplyRandom bytes) s = .next w ∧
    (∀ k, w.rndInjected[k]? =
      if k < s.rndInjected.length then s.rndInjected[k]? else bytes[k - s.rndInjected.length]?) ∧
    w = { s with rndInjected := w.rndInjected }

/-- The invariant holds at reset. What it says of slot 0 and of the fault fields rests on D6 (10.md) and D17 (18.md), its
bounds on D4 (8.md) and D23 (22.md); the list form of memory is 5.md. -/
def Obligations.InvariantHoldsAtReset : Prop := State.reset.Inv

/-- Every step from a state with the invariant leads to a state with it: memory keeps its canonical form below address
4096, `pc` stays at most 0x10FE, every stack slot stays at most 0x0FFE (the last address a word can be fetched from),
slot 0 stays 0, and the fault fields stay consistent. Rests on D4 (8.md), D6 (10.md), D17 (18.md) and D23 (22.md); the
list form of memory is 5.md. -/
def Obligations.EveryStepKeepsTheInvariant : Prop :=
  ∀ s t : State, s.Inv → step s = .next t → t.Inv

/-- Whatever the host does after reset, in any order, the invariant holds: it is kept by reset, load, key changes,
injected random bytes, `ClearDirty` and ticks alike. The invariant rests on D4 (8.md), D6 (10.md), D17 (18.md) and D23
(22.md); the list form of memory is 5.md; what the host's operations write is D15 (2.md), D18 (19.md), D19 (20.md) and D20
(6.md), and that reset leaves the random supply is 28.md. -/
def Obligations.EverySessionKeepsTheInvariant : Prop :=
  ∀ (ops : List HostOp) (s t : State), s.Inv → hostRun ops s = .next t → t.Inv

/-- `load` before the first tick: an image of at most 3584 bytes is copied byte for byte to 0x200 and up and nothing
else changes; a longer one fails with `ImageTooLarge` and its length. No other host operation but reset writes memory.
(The premise "before the first tick" is R294, D19.) -/
def Obligations.LoadCopiesTheImage : Prop :=
  ∀ (image : List Byte) (s : State), s.mem.wf = true → s.ticked = false →
    (image.length ≤ 3584 → ∃ t : State,
      hostLoad image s = .next t ∧ t = { s with mem := t.mem } ∧
      (∀ k (h : k < image.length), t.mem.read (0x200 + k) = image[k]) ∧
      ∀ a, (a < 0x200 ∨ 0x200 + image.length ≤ a) → t.mem.read a = s.mem.read a) ∧
    (3584 < image.length → hostLoad image s = .fault (.imageTooLarge image.length)) ∧
    ∀ (op : HostOp) (s t : State), hostDo op s = .next t → t.mem ≠ s.mem →
      op = .tick ∨ op = .reset ∨ ∃ image, op = .load image

/-- After the first tick of a running machine, and after whatever the host then does without a reset (ticks, key writes,
injected bytes, `ClearDirty`), `load` is refused, whatever the image (D19; how the model tells that a tick has run is
20.md). -/
def Obligations.LoadAfterTheFirstTickIsRefused : Prop :=
  ∀ (image : List Byte) (ops : List HostOp) (s t u : State), s.halted = false → step s = .next t →
    HostOp.reset ∉ ops → hostRun ops t = .next u → hostLoad image u = .refused .loadAfterFirstTick

/-! ### Control flow -/

/-- `1nnn` JP sets `pc` to `nnn` exactly, not `nnn + 2`, and changes nothing else. -/
def Obligations.JumpSetsPcExactly : Prop :=
  ∀ (nnn : Addr12) (s : State),
    exec (.jp nnn) s = .next { s with pc := BitVec.ofNat 16 nnn.toNat }

/-- `3xkk` SE and `4xkk` SNE against an immediate: `pc` grows by 4 when the condition holds and by 2 when it does not;
nothing else changes. -/
def Obligations.ImmediateSkipsMovePcByFourOrTwo : Prop :=
  ∀ (x : Reg) (kk : Byte) (s : State),
    exec (.seImm x kk) s =
      .next { s with pc := BitVec.ofNat 16 (s.pc.toNat + if (s.reg x).toNat = kk.toNat then 4 else 2) } ∧
    exec (.sneImm x kk) s =
      .next { s with pc := BitVec.ofNat 16 (s.pc.toNat + if (s.reg x).toNat = kk.toNat then 2 else 4) }

/-- `5xy*` SE and `9xy*` SNE between registers, whatever the low nibble, which is not examined (D3): `pc` grows by 4 or
2; nothing else changes. -/
def Obligations.RegisterSkipsMovePcByFourOrTwo : Prop :=
  ∀ (x y : Reg) (n : Nibble) (s : State),
    exec (.seReg x y n) s =
      .next { s with pc := BitVec.ofNat 16 (s.pc.toNat + if (s.reg x).toNat = (s.reg y).toNat then 4 else 2) } ∧
    exec (.sneReg x y n) s =
      .next { s with pc := BitVec.ofNat 16 (s.pc.toNat + if (s.reg x).toNat = (s.reg y).toNat then 2 else 4) }

/-- `Bnnn` JP V0: `pc` becomes `nnn + v[0]`, not reduced to 12 bits (D23); nothing else changes. -/
def Obligations.JumpWithOffsetAddsRegisterZero : Prop :=
  ∀ (nnn : Addr12) (s : State), ∃ t : State,
    exec (.jpV0 nnn) s = .next t ∧ t.pc.toNat = nnn.toNat + (s.reg 0).toNat ∧ t = { s with pc := t.pc }

/-- `2nnn` CALL with `sp < 15`: `sp` grows by 1, the slot it now names holds the Call's own address, the other slots and
everything else are unchanged, `pc` is `nnn` (D6). With `sp = 15` it halts with `StackOverflow(pc)` (D17). -/
def Obligations.CallPushesItsOwnAddress : Prop :=
  ∀ (nnn : Addr12) (s : State),
    (s.sp.val < 15 → ∃ t : State,
      exec (.call nnn) s = .next t ∧ t.sp.val = s.sp.val + 1 ∧ t.stack[t.sp.val] = s.pc ∧
      (∀ k : Fin 16, k ≠ t.sp → t.stack[k.val] = s.stack[k.val]) ∧ t.pc.toNat = nnn.toNat ∧
      t = { s with pc := t.pc, sp := t.sp, stack := t.stack }) ∧
    (s.sp.val = 15 → exec (.call nnn) s =
      .next { s with halted := true, faultCause := .stackOverflow, faultInfo := s.pc })

/-- `00EE` RET with `sp > 0`: `pc` is the newest stacked address plus 2, `sp` falls by 1, nothing else changes (D6, D7).
With `sp = 0` it halts with `StackUnderflow(pc)` (D17). -/
def Obligations.ReturnResumesAfterTheCall : Prop :=
  ∀ s : State,
    (0 < s.sp.val → ∃ t : State,
      exec .ret s = .next t ∧ t.pc = BitVec.ofNat 16 (s.stack[s.sp.val].toNat + 2) ∧ t.sp.val + 1 = s.sp.val ∧
      t = { s with pc := t.pc, sp := t.sp }) ∧
    (s.sp.val = 0 → exec .ret s =
      .next { s with halted := true, faultCause := .stackUnderflow, faultInfo := s.pc })

/-- A Call and the Return that meets its stack again: `pc` is the address after the Call and `sp` is as before,
whatever else the subroutine changed (D6, D7). -/
def Obligations.CallThenReturnComesBack : Prop :=
  ∀ (nnn : Addr12) (s t u : State), s.sp.val < 15 → exec (.call nnn) s = .next t → u.sp = t.sp → u.stack = t.stack →
    ∃ r : State, exec .ret u = .next r ∧ r.pc = BitVec.ofNat 16 (s.pc.toNat + 2) ∧ r.sp = s.sp

/-- `STACK_DEPTH` = 15 Calls nest from an empty stack, whatever their targets: after `m` Calls `sp` is `m` but at most
15, the machine runs on exactly while `m ≤ 15`, and beyond that it has halted with `StackOverflow` (D6, D17). -/
def Obligations.CallsNestToTheStackDepth : Prop :=
  ∀ (targets : List Addr12) (s : State), s.halted = false → s.sp.val = 0 → ∃ t : State,
    execAll (targets.map Instr.call) s = .next t ∧ t.sp.val = min targets.length Config.stackDepth ∧
    Config.stackDepth = 15 ∧ (t.halted = false ↔ targets.length ≤ 15) ∧
    (15 < targets.length → t.faultCause = .stackOverflow)

/-! ### Register loads, ALU, random -/

/-- `6xkk` LD stores the immediate and `8xy0` LD copies a register; only `v[x]` changes, and `pc` grows by 2. That
the copy leaves VF alone is D10 (13.md). -/
def Obligations.LoadsWriteTheirDestinationOnly : Prop :=
  ∀ (x y : Reg) (kk : Byte) (s : State),
    (∃ t : State, exec (.ldImm x kk) s = .next t ∧ t.reg x = kk ∧ (∀ k, k ≠ x → t.reg k = s.reg k) ∧
      t = { s with v := t.v, pc := s.pc + 2 }) ∧
    ∃ t : State, exec (.ldReg x y) s = .next t ∧ t.reg x = s.reg y ∧ (∀ k, k ≠ x → t.reg k = s.reg k) ∧
      t = { s with v := t.v, pc := s.pc + 2 }

/-- `7xkk` ADD: the sum modulo 256, no other register, VF included; `pc` grows by 2. -/
def Obligations.AddImmediateWrapsWithoutFlag : Prop :=
  ∀ (x : Reg) (kk : Byte) (s : State),
    ∃ t : State, exec (.addImm x kk) s = .next t ∧ (t.reg x).toNat = ((s.reg x).toNat + kk.toNat) % 256 ∧
      (∀ k, k ≠ x → t.reg k = s.reg k) ∧ t = { s with v := t.v, pc := s.pc + 2 }

/-- `8xy1` OR, `8xy2` AND, `8xy3` XOR bit by bit; no other register changes, VF included (D10). -/
def Obligations.LogicOperationsActBitwise : Prop :=
  ∀ (x y : Reg) (s : State),
    (∃ t : State, exec (.orReg x y) s = .next t ∧
      (∀ b, (t.reg x).getLsbD b = ((s.reg x).getLsbD b || (s.reg y).getLsbD b)) ∧
      (∀ k, k ≠ x → t.reg k = s.reg k) ∧ t = { s with v := t.v, pc := s.pc + 2 }) ∧
    (∃ t : State, exec (.andReg x y) s = .next t ∧
      (∀ b, (t.reg x).getLsbD b = ((s.reg x).getLsbD b && (s.reg y).getLsbD b)) ∧
      (∀ k, k ≠ x → t.reg k = s.reg k) ∧ t = { s with v := t.v, pc := s.pc + 2 }) ∧
    ∃ t : State, exec (.xorReg x y) s = .next t ∧
      (∀ b, (t.reg x).getLsbD b = ((s.reg x).getLsbD b != (s.reg y).getLsbD b)) ∧
      (∀ k, k ≠ x → t.reg k = s.reg k) ∧ t = { s with v := t.v, pc := s.pc + 2 }

/-- `8xy4` ADD: for `x ≠ 15`, `256 × VF + v[x]` is the sum of the old operands; VF is 0 or 1, and for `x = 15` it is the
carry, written last (D8); no other register changes. -/
def Obligations.AddSetsResultThenCarry : Prop :=
  ∀ (x y : Reg) (s : State), ∃ t : State,
    exec (.addReg x y) s = .next t ∧
    (t.reg 15).toNat = ((s.reg x).toNat + (s.reg y).toNat) / 256 ∧
    (x ≠ 15 → 256 * (t.reg 15).toNat + (t.reg x).toNat = (s.reg x).toNat + (s.reg y).toNat) ∧
    (∀ k, k ≠ x → k ≠ 15 → t.reg k = s.reg k) ∧ t = { s with v := t.v, pc := s.pc + 2 }

/-- `8xy5` SUB and `8xy7` SUBN: the difference modulo 256, and VF = 1 exactly when the minuend is strictly greater, 0 at
equality (C7, and D9 for SUBN: 12.md), written last (D8, 11.md); no other register changes. -/
def Obligations.SubtractionsSetResultThenFlag : Prop :=
  ∀ (x y : Reg) (s : State),
    (∃ t : State, exec (.subReg x y) s = .next t ∧
      t.reg 15 = (if (s.reg x).toNat > (s.reg y).toNat then 1 else 0) ∧
      (x ≠ 15 → ((t.reg x).toNat + (s.reg y).toNat) % 256 = (s.reg x).toNat) ∧
      (∀ k, k ≠ x → k ≠ 15 → t.reg k = s.reg k) ∧ t = { s with v := t.v, pc := s.pc + 2 }) ∧
    ∃ t : State, exec (.subnReg x y) s = .next t ∧
      t.reg 15 = (if (s.reg y).toNat > (s.reg x).toNat then 1 else 0) ∧
      (x ≠ 15 → ((t.reg x).toNat + (s.reg x).toNat) % 256 = (s.reg y).toNat) ∧
      (∀ k, k ≠ x → k ≠ 15 → t.reg k = s.reg k) ∧ t = { s with v := t.v, pc := s.pc + 2 }

/-- `8xy6` SHR and `8xyE` SHL shift `v[x]` by one, whatever `y` (D3), and VF gets the bit moved out, written last (D8):
`2 × v[x] + VF` after SHR, and `256 × VF + v[x]` after SHL, relate old and new; no other register changes. -/
def Obligations.ShiftsMoveOneBitIntoTheFlag : Prop :=
  ∀ (x y : Reg) (s : State),
    (∃ t : State, exec (.shr x y) s = .next t ∧ (t.reg 15).toNat = (s.reg x).toNat % 2 ∧
      (x ≠ 15 → 2 * (t.reg x).toNat + (t.reg 15).toNat = (s.reg x).toNat) ∧
      (∀ k, k ≠ x → k ≠ 15 → t.reg k = s.reg k) ∧ t = { s with v := t.v, pc := s.pc + 2 }) ∧
    ∃ t : State, exec (.shl x y) s = .next t ∧ (t.reg 15).toNat = (s.reg x).toNat / 128 ∧
      (x ≠ 15 → 256 * (t.reg 15).toNat + (t.reg x).toNat = 2 * (s.reg x).toNat) ∧
      (∀ k, k ≠ x → k ≠ 15 → t.reg k = s.reg k) ∧ t = { s with v := t.v, pc := s.pc + 2 }

/-- `Cxkk` RND stores the next random byte masked by `kk` and consumes exactly one byte: the oldest injected one, or,
when none is injected, the free value (D15; 2.md), of which nothing is assumed. -/
def Obligations.RandomConsumesOneMaskedByte : Prop :=
  ∀ (x : Reg) (kk : Byte) (s : State), ∃ (t : State) (r : Byte),
    exec (.rnd x kk) s = .next t ∧ t.reg x = r &&& kk ∧ (∀ b, kk.getLsbD b = false → (t.reg x).getLsbD b = false) ∧
    (∀ r' rest, s.rndInjected = r' :: rest → r = r' ∧ t.rndInjected = rest) ∧
    (s.rndInjected = [] → r = Config.randomByte s.rndDrawn ∧ t.rndInjected = []) ∧ t.rndDrawn = s.rndDrawn + 1 ∧
    (∀ k, k ≠ x → t.reg k = s.reg k) ∧
    t = { s with v := t.v, pc := s.pc + 2, rndInjected := t.rndInjected, rndDrawn := t.rndDrawn }

/-! ### Index register and memory -/

/-- `Annn` LD I sets `I` to `nnn`, and `Fx29` LD F sets it to `5 × v[x]`, unmasked; only `I` changes, and `pc` grows by 2. -/
def Obligations.IndexLoadsSetIndexOnly : Prop :=
  ∀ (nnn : Addr12) (x : Reg) (s : State),
    (∃ t : State, exec (.ldI nnn) s = .next t ∧ t.I.toNat = nnn.toNat ∧ t = { s with I := t.I, pc := s.pc + 2 }) ∧
    ∃ t : State, exec (.ldF x) s = .next t ∧ t.I.toNat = 5 * (s.reg x).toNat ∧ t = { s with I := t.I, pc := s.pc + 2 }

/-- `Fx1E` ADD I: the sum modulo 65536; VF and everything else unchanged (D10). -/
def Obligations.AddToIndexWrapsWithoutFlag : Prop :=
  ∀ (x : Reg) (s : State), ∃ t : State,
    exec (.addI x) s = .next t ∧ t.I.toNat = (s.I.toNat + (s.reg x).toNat) % 65536 ∧
    t = { s with I := t.I, pc := s.pc + 2 }

/-- `Fx33` LD B in range: the three bytes from the effective address on are the decimal digits of `v[x]`, every other
byte of memory reads as before, and nothing else but `pc` changes. The range is D4 (8.md); that every byte of it may be
written is D24 (23.md). -/
def Obligations.BcdStoresTheDecimalDigits : Prop :=
  ∀ (x : Reg) (s : State), s.mem.wf = true → s.I.toNat + 2 < 4096 → ∃ t : State,
    exec (.ldB x) s = .next t ∧
    (s.reg x).toNat = 100 * (t.mem.read (s.effAddr 0)).toNat + 10 * (t.mem.read (s.effAddr 1)).toNat +
      (t.mem.read (s.effAddr 2)).toNat ∧
    (t.mem.read (s.effAddr 1)).toNat ≤ 9 ∧ (t.mem.read (s.effAddr 2)).toNat ≤ 9 ∧
    (∀ a, (a < s.effAddr 0 ∨ s.effAddr 0 + 3 ≤ a) → t.mem.read a = s.mem.read a) ∧
    t = { s with mem := t.mem, pc := s.pc + 2 }

/-- `Fx55` in range: `v[0]` to `v[x]` stand at the effective addresses `I` to `I + x`, every other byte of memory reads
as before, and nothing else but `pc` changes, `I` included. The range is D4 (8.md); that every byte of it may be written is
D24 (23.md). -/
def Obligations.RegisterDumpStoresRegistersInOrder : Prop :=
  ∀ (x : Reg) (s : State), s.mem.wf = true → s.I.toNat + x.val < 4096 → ∃ t : State,
    exec (.ldMemVx x) s = .next t ∧
    (∀ k : Reg, k.val ≤ x.val → t.mem.read (s.effAddr k.val) = s.reg k) ∧
    (∀ a, (a < s.effAddr 0 ∨ s.effAddr 0 + (x.val + 1) ≤ a) → t.mem.read a = s.mem.read a) ∧
    t = { s with mem := t.mem, pc := s.pc + 2 }

/-- `Fx65` in range: `v[0]` to `v[x]` are the bytes at `I` to `I + x`, the registers above `x` and everything else but
`pc` are unchanged. The range is D4. -/
def Obligations.RegisterLoadReadsMemoryInOrder : Prop :=
  ∀ (x : Reg) (s : State), s.I.toNat + x.val < 4096 → ∃ t : State,
    exec (.ldVxMem x) s = .next t ∧
    (∀ k : Reg, k.val ≤ x.val → t.reg k = s.mem.read (s.effAddr k.val)) ∧
    (∀ k : Reg, x.val < k.val → t.reg k = s.reg k) ∧
    t = { s with v := t.v, pc := s.pc + 2 }

/-- Dump and load are inverse: after `Fx55`, whatever then becomes of the registers and of `pc`, `Fx65` with the same
`x` restores `v[0]` to `v[x]` and `I` is as before (S7 of spec/95_test_vectors.md). The range is D4 (8.md); that every
byte of it may be written is D24 (23.md). -/
def Obligations.DumpThenLoadRestoresRegisters : Prop :=
  ∀ (x : Reg) (s : State) (v : Vector Byte 16) (pc : Word), s.mem.wf = true → s.I.toNat + x.val < 4096 →
    ∃ t u : State, exec (.ldMemVx x) s = .next t ∧ exec (.ldVxMem x) { t with v := v, pc := pc } = .next u ∧
      (∀ k : Reg, k.val ≤ x.val → u.reg k = s.reg k) ∧ t.I = s.I ∧ u.I = s.I

/-- An access of `Fx33`, `Fx55`, `Fx65` or `Dxyn` that needs an address of 4096 or more halts with
`MemoryOutOfRange(max(I, 4096))` and writes nothing else (D4, 8.md; the halted state is D17, 18.md). That `Dxyn` halts
also when only rows clipped off the grid lie beyond memory is D25 (24.md). -/
def Obligations.OutOfRangeAccessHaltsBeforeAnyWrite : Prop :=
  ∀ (i : Instr) (n : Nat) (s : State), 0 < n → 4096 < s.I.toNat + n →
    ((∃ x, i = .ldB x ∧ n = 3) ∨ (∃ x : Reg, i = .ldMemVx x ∧ n = x.val + 1) ∨
      (∃ x : Reg, i = .ldVxMem x ∧ n = x.val + 1) ∨ ∃ x y, i = .drw x y n) →
    exec i s = .next { s with
      halted := true, faultCause := .memoryOutOfRange, faultInfo := BitVec.ofNat 16 (max s.I.toNat 4096) }

/-- What `Fx33` or `Fx55` stores is what the next tick fetches, wherever the store falls: after a tick that stores, the
word fetched at `pc + 2` is, byte by byte, the stored byte where the store covers it (both bytes, one, or none) and what
memory held before where it does not. The range is D4 (8.md), the writable program D24 (23.md), the free alignment of
`pc` D5 (9.md). -/
def Obligations.StoreIsSeenByTheNextFetch : Prop :=
  ∀ (i : Instr) (x : Reg) (s t : State), (i = .ldB x ∨ i = .ldMemVx x) → s.mem.wf = true → s.halted = false →
    s.I.toNat + storeLength i ≤ 4096 → s.pc.toNat + 3 < 4096 → decodeWord s.wordAtPc = some i → step s = .next t →
    ∃ u : State, step t = .next u ∧
      u.currentInstruction.toNat = 256 * (byteAfter i s (s.pc.toNat + 2)).toNat + (byteAfter i s (s.pc.toNat + 3)).toNat

/-! ### Display -/

/-- `00E0` CLS: every pixel is 0 and `dirty` is 1; VF and everything else but `pc` unchanged. -/
def Obligations.ClearScreenZeroesEveryPixel : Prop :=
  ∀ s : State, ∃ t : State, exec .cls s = .next t ∧ (∀ row col, t.fb.pixel row col = false) ∧
    t = { s with fb := t.fb, dirty := true, pc := s.pc + 2 }

/-- `Dxyn` DRW in range, or with `n = 0` whatever `I`: each pixel of the grid is inverted exactly where the sprite has a
1 bit, what lies off the grid is dropped (D11), bit 7 is leftmost (D12); VF is 1 when some pixel went from 1 to 0 and
else 0; `dirty` is 1, changed pixels or not (D18, 19.md); nothing else but `pc` changes (D4, D25). That VF is 0 without a
collision is C11 (32.md); that with `x` or `y` = 15 the coordinate is the old VF is the spec's own choice too, in R211
(11.md, D8). -/
def Obligations.DrawInvertsExactlyTheSpritePixels : Prop :=
  ∀ (x y : Reg) (n : Nat) (s : State), n ≤ 15 → (n = 0 ∨ s.I.toNat + n ≤ 4096) → ∃ t : State,
    exec (.drw x y n) s = .next t ∧
    (∀ row col, row < 32 → col < 64 →
      t.fb.pixel row col = (s.fb.pixel row col != spriteLit x y n s row col)) ∧
    (t.reg 15 = 0 ∨ t.reg 15 = 1) ∧
    (t.reg 15 = 1 ↔ ∃ row col, row < 32 ∧ col < 64 ∧ s.fb.pixel row col = true ∧ spriteLit x y n s row col = true) ∧
    (∀ k, k ≠ 15 → t.reg k = s.reg k) ∧
    t = { s with v := t.v, fb := t.fb, dirty := true, pc := s.pc + 2 }

/-- Drawing the same sprite twice, with coordinates not in VF, gives the framebuffer back. The second drawing leaves
VF = 1 exactly when some visible 1 bit of the sprite fell on a pixel that was 0 before the first; so, where the first
drawing did not collide, exactly when the sprite has a visible 1 bit (S4, Q6 of spec/95_test_vectors.md; Q6 leaves the
proviso unsaid, and R211 makes it: 26.md; D4, D11, D12). With `n = 0`, whatever `I`, it is D25
(24.md); that VF is 0 without a collision is C11 (32.md). -/
def Obligations.DrawingTwiceRestoresTheScreen : Prop :=
  ∀ (x y : Reg) (n : Nat) (s : State), x ≠ 15 → y ≠ 15 → n ≤ 15 → (n = 0 ∨ s.I.toNat + n ≤ 4096) → ∃ t u : State,
    exec (.drw x y n) s = .next t ∧ exec (.drw x y n) t = .next u ∧ u.fb = s.fb ∧
    (u.reg 15 = 1 ↔ ∃ row col, row < 32 ∧ col < 64 ∧ s.fb.pixel row col = false ∧ spriteLit x y n s row col = true) ∧
    (t.reg 15 = 0 → (u.reg 15 = 1 ↔ ∃ row col, row < 32 ∧ col < 64 ∧ spriteLit x y n s row col = true))

/-- The framebuffer changes by CLS, DRW and reset only: no other tick and no other host operation changes it. It is not
part of `mem`: which registers and memory a load or a store leaves does not depend on it. A sprite is read from `mem`,
never from it: which pixels DRW inverts does not depend on it. (That a halted machine's tick changes nothing is D17,
18.md, and that a fetch at 4095 or above halts before it draws, D4, 8.md.) -/
def Obligations.OnlyClearDrawAndResetWriteThePixels : Prop :=
  (∀ (op : HostOp) (s t : State), hostDo op s = .next t → t.fb ≠ s.fb →
    op = .reset ∨
    (op = .tick ∧ s.halted = false ∧ s.pc.toNat + 1 < 4096 ∧
      (decodeWord s.wordAtPc = some .cls ∨ ∃ x y n, decodeWord s.wordAtPc = some (.drw x y n)))) ∧
  (∀ (i : Instr) (s t : State) (f : Framebuffer), i ≠ .cls → (∀ x y n, i ≠ .drw x y n) → exec i s = .next t →
    exec i { s with fb := f } = .next { t with fb := f }) ∧
  ∀ (x y : Reg) (n : Nat) (s t t' : State) (f : Framebuffer), exec (.drw x y n) s = .next t →
    exec (.drw x y n) { s with fb := f } = .next t' →
    ∀ row col, row < 32 → col < 64 →
      (t.fb.pixel row col != s.fb.pixel row col) = (t'.fb.pixel row col != f.pixel row col)

/-! ### Keypad and timers -/

/-- `Ex9E` SKP and `ExA1` SKNP with `v[x] ≤ 15`: `pc` grows by 4 or 2 as the key is down or up, nothing else changes.
Above 15 they halt with `KeyIndexOutOfRange(v[x])` (D14, 16.md; the halted state is D17, 18.md). The key read is that of
the tick's snapshot (D20, 6.md). -/
def Obligations.KeySkipsTestTheNumberedKey : Prop :=
  ∀ (x : Reg) (s : State),
    ((s.reg x).toNat ≤ 15 →
      exec (.skp x) s = .next { s with
        pc := BitVec.ofNat 16 (s.pc.toNat + if s.key.getLsbD (s.reg x).toNat then 4 else 2) } ∧
      exec (.sknp x) s = .next { s with
        pc := BitVec.ofNat 16 (s.pc.toNat + if s.key.getLsbD (s.reg x).toNat then 2 else 4) }) ∧
    (15 < (s.reg x).toNat →
      exec (.skp x) s = .next { s with
        halted := true, faultCause := .keyIndexOutOfRange, faultInfo := BitVec.ofNat 16 (s.reg x).toNat } ∧
      exec (.sknp x) s = .next { s with
        halted := true, faultCause := .keyIndexOutOfRange, faultInfo := BitVec.ofNat 16 (s.reg x).toNat })

/-- `Fx0A` LD Vx, K: with keys down, the lowest one's number goes to `v[x]` and `pc` grows by 2; with none down the state
is unchanged, so the same instruction is fetched again, and a whole tick of the wait only counts, runs the timers and
records the word. -/
def Obligations.KeyWaitTakesTheLowestKeyOrHolds : Prop :=
  ∀ (x : Reg) (s : State),
    ((∀ k, k < 16 → s.key.getLsbD k = false) → exec (.ldVxK x) s = .next s) ∧
    (∀ k, k < 16 → s.key.getLsbD k = true → (∀ j, j < k → s.key.getLsbD j = false) → ∃ t : State,
      exec (.ldVxK x) s = .next t ∧ (t.reg x).toNat = k ∧ (∀ j, j ≠ x → t.reg j = s.reg j) ∧
      t = { s with v := t.v, pc := s.pc + 2 }) ∧
    (s.halted = false → s.pc.toNat + 1 < 4096 → decodeWord s.wordAtPc = some (.ldVxK x) →
      (∀ k, k < 16 → s.key.getLsbD k = false) →
      step s = .next { s with
        cycleCount := s.cycleCount + 1
        dt := if (s.cycleCount + 1) % 9 = 0 then BitVec.ofNat 8 (s.dt.toNat - 1) else s.dt
        st := if (s.cycleCount + 1) % 9 = 0 then BitVec.ofNat 8 (s.st.toNat - 1) else s.st
        currentInstruction := s.wordAtPc })

/-- A key wait in a whole tick: a running machine at an `Fx0A` with no key down stays there, counting and running its
timers, and a tick with a key down gets past it. The keypad is the tick's snapshot (D20, 6.md); the unbounded count is
D16 (17.md). -/
def Obligations.OnlyAKeyEndsTheWait : Prop :=
  ∀ (x : Reg) (s t : State), s.halted = false → s.pc.toNat + 1 < 4096 → decodeWord s.wordAtPc = some (.ldVxK x) →
    step s = .next t →
    t.halted = false ∧ (t.pc = s.pc ↔ s.key = 0) ∧ (s.key = 0 → t.v = s.v) ∧ t.cycleCount = s.cycleCount + 1 ∧
    t.dt.toNat = (if (s.cycleCount + 1) % 9 = 0 then s.dt.toNat - 1 else s.dt.toNat) ∧
    t.st.toNat = (if (s.cycleCount + 1) % 9 = 0 then s.st.toNat - 1 else s.st.toNat)

/-- `Fx07` LD Vx, DT: `v[x]` is the delay timer, which stays; in a whole tick the value read is the one after the tick's
own decrement, since the timers come before the execute phase (C1, 31.md). No instruction reads the sound timer: what
each does to the rest of the state does not depend on it. -/
def Obligations.DelayTimerIsReadAfterTheCadence : Prop :=
  ∀ (x : Reg) (s : State),
    (∃ t : State, exec (.ldVxDt x) s = .next t ∧ t.reg x = s.dt ∧ (∀ k, k ≠ x → t.reg k = s.reg k) ∧
      t = { s with v := t.v, pc := s.pc + 2 }) ∧
    (∀ t : State, s.halted = false → s.pc.toNat + 1 < 4096 → decodeWord s.wordAtPc = some (.ldVxDt x) →
      step s = .next t →
      (t.reg x).toNat = (if (s.cycleCount + 1) % 9 = 0 then s.dt.toNat - 1 else s.dt.toNat) ∧ t.dt = t.reg x) ∧
    ∀ (i : Instr) (t : State) (b : Byte), exec i s = .next t →
      ∃ b' : Byte, exec i { s with st := b } = .next { t with st := b' }

/-- `Fx15` and `Fx18` copy `v[x]` into their timer and change nothing else but `pc`; the tone is on exactly while the
sound timer is not 0; in a whole tick, a ninth one included, the value set is not decremented, since the timers come
before the execute phase (C1, 31.md). -/
def Obligations.TimerSetsCopyTheRegister : Prop :=
  ∀ (x : Reg) (s : State),
    exec (.ldDtVx x) s = .next { s with dt := s.reg x, pc := s.pc + 2 } ∧
    exec (.ldStVx x) s = .next { s with st := s.reg x, pc := s.pc + 2 } ∧
    (s.tone = true ↔ s.st.toNat > 0) ∧
    ∀ t : State, s.halted = false → s.pc.toNat + 1 < 4096 → step s = .next t →
      (decodeWord s.wordAtPc = some (.ldDtVx x) → t.dt = s.reg x) ∧
      (decodeWord s.wordAtPc = some (.ldStVx x) → t.st = s.reg x)

/-! ### The whole machine -/

/-- What an instruction leaves alone, for all 34 (the access matrix R40, which the spec derives): a register it does not
write, a byte outside those it stores from its effective address on, `I`, the stack, the timers, the screen, the
random supply and `pc` as the matrix says; the keypad, `cycle_count` and `current_instruction` always. The matrix's own
choices are D10 (which instructions leave VF alone, 13.md), D6 and D7 (Call and Return, 10.md), D15 (who
consumes random bytes, 2.md) and D20 (the keypad, 6.md); that an instruction that faults writes nothing is D17 (18.md). -/
def Obligations.InstructionsWriteOnlyWhatTheMatrixSays : Prop :=
  ∀ (i : Instr) (s t : State), exec i s = .next t →
    (∀ k, writesReg i k = false → t.reg k = s.reg k) ∧
    (∀ a, (a < s.effAddr 0 ∨ s.effAddr 0 + storeLength i ≤ a) → t.mem.read a = s.mem.read a) ∧
    (t.I ≠ s.I → (∃ nnn, i = .ldI nnn) ∨ (∃ x, i = .addI x) ∨ ∃ x, i = .ldF x) ∧
    (t.stack ≠ s.stack → ∃ nnn, i = .call nnn) ∧
    (t.sp ≠ s.sp → i = .ret ∨ ∃ nnn, i = .call nnn) ∧
    (t.dt ≠ s.dt → ∃ x, i = .ldDtVx x) ∧
    (t.st ≠ s.st → ∃ x, i = .ldStVx x) ∧
    (t.fb ≠ s.fb ∨ t.dirty ≠ s.dirty → i = .cls ∨ ∃ x y n, i = .drw x y n) ∧
    (t.rndInjected ≠ s.rndInjected ∨ t.rndDrawn ≠ s.rndDrawn → ∃ x kk, i = .rnd x kk) ∧
    t.key = s.key ∧ t.cycleCount = s.cycleCount ∧ t.currentInstruction = s.currentInstruction ∧
    (s.halted = false → t.halted = false →
      (pcEffect i = .advances → t.pc = s.pc + 2) ∧
      (pcEffect i = .maySkip → t.pc = s.pc + 2 ∨ t.pc = s.pc + 4) ∧
      (pcEffect i = .mayHold → t.pc = s.pc ∨ t.pc = s.pc + 2))

/-- The complete list of what can fault in the execute phase, with the exact condition of each (R257, derived by the
spec): a Return with `sp = 0`, a Call with `sp = 15`, an access from `I` that leaves memory (D4, 8.md), a key index above
15 (D14, 16.md); the other 26 instructions never do. That `n = 0` never faults and clipped rows do is D25 (24.md); that a
fault is seen as `halted`, D17 (18.md). -/
def Obligations.OnlyTheListedInstructionsFault : Prop :=
  ∀ (i : Instr) (s t : State), s.halted = false → exec i s = .next t →
    (t.halted = true ↔
      (i = .ret ∧ s.sp = 0) ∨ ((∃ nnn, i = .call nnn) ∧ s.sp = 15) ∨
      (∃ x y n, i = .drw x y n ∧ 0 < n ∧ 4096 < s.I.toNat + n) ∨ ((∃ x, i = .ldB x) ∧ 4096 < s.I.toNat + 3) ∨
      (∃ x : Reg, (i = .ldMemVx x ∨ i = .ldVxMem x) ∧ 4096 < s.I.toNat + (x.val + 1)) ∨
      ∃ x, (i = .skp x ∨ i = .sknp x) ∧ 15 < (s.reg x).toNat)

/-- A tick that faults writes nothing of the program's: it changes `cycle_count`, the timers as the cadence says,
`current_instruction` when the fetch succeeded, and the three fault fields (Q4 of spec/95_test_vectors.md; R261, D17,
18.md). When the fetch fails is D4 (8.md); that the timers come before the fetch is C1 (31.md); the unbounded count is D16
(17.md). -/
def Obligations.FaultsArePrecise : Prop :=
  ∀ s t : State, s.halted = false → step s = .next t → t.halted = true →
    t = { s with
      cycleCount := s.cycleCount + 1
      dt := if (s.cycleCount + 1) % 9 = 0 then BitVec.ofNat 8 (s.dt.toNat - 1) else s.dt
      st := if (s.cycleCount + 1) % 9 = 0 then BitVec.ofNat 8 (s.st.toNat - 1) else s.st
      currentInstruction := if s.pc.toNat + 1 < 4096 then s.wordAtPc else s.currentInstruction
      halted := true, faultCause := t.faultCause, faultInfo := t.faultInfo } ∧
    t.faultCause ≠ .noFault ∧ t.faultCause ≠ .imageTooLarge

/-- The two free inputs are read by their instructions only (R130, derived by the spec; D15, D20): an instruction other
than SKP, SKNP and LD Vx, K does the same whatever the keypad, and one other than RND does the same whatever the random
supply and consumes none of it. -/
def Obligations.InputsReachOnlyTheirInstructions : Prop :=
  (∀ (i : Instr) (s t : State) (k : Keypad), (∀ x, i ≠ .skp x ∧ i ≠ .sknp x ∧ i ≠ .ldVxK x) → exec i s = .next t →
    exec i { s with key := k } = .next { t with key := k }) ∧
  ∀ (i : Instr) (s t : State) (q : List Byte) (n : Nat), (∀ x kk, i ≠ .rnd x kk) → exec i s = .next t →
    exec i { s with rndInjected := q, rndDrawn := n } = .next { t with rndInjected := q, rndDrawn := n }
end

