-- ==== Sys2Proof/Laws/Decode.lean ====
section
/-! SUPPORT. The fields of a packed word (spec/30_encoding.md R91, R92), and a word rebuilt from its fields: with these,
decoding an encoded instruction is one rewrite a field, and no proof looks at bits again. -/

namespace Sys2Proof

/-! ### The widths as numbers

The types carry the named parameters of spec/00_scope.md R6; arithmetic needs their values. -/

theorem byte_lt (b : Byte) : b.toNat < 256 := b.isLt

theorem reg_lt (x : Reg) : x.val < 16 := x.isLt

theorem slot_lt (k : Fin Config.stackSlots) : k.val < 16 := k.isLt

theorem index_lt (w : IndexWord) : w.toNat < 65536 := w.isLt

theorem pc_lt (w : PcWord) : w.toNat < 65536 := w.isLt

/-! ### Register indices and nibbles -/

@[simp] theorem nibbleReg_regNibble (r : Reg) : nibbleReg (regNibble r) = r := by
  apply Fin.ext
  simp only [nibbleReg, regNibble, BitVec.toNat_ofNat]
  exact Nat.mod_eq_of_lt r.isLt

@[simp] theorem regNibble_nibbleReg (b : Nibble) : regNibble (nibbleReg b) = b := by
  simp [nibbleReg, regNibble]

theorem toNat_regNibble (r : Reg) : (regNibble r).toNat = r.val := by
  simp only [regNibble, BitVec.toNat_ofNat]
  exact Nat.mod_eq_of_lt r.isLt

/-! ### Words as numbers -/

theorem toNat_pack (c x y n : Nibble) :
    (pack c x y n).toNat = 4096 * c.toNat + 256 * x.toNat + 16 * y.toNat + n.toNat := by
  have := c.isLt; have := x.isLt; have := y.isLt; have := n.isLt
  simp only [pack, BitVec.toNat_append, Nat.shiftLeft_eq]
  rw [← Nat.shiftLeft_eq, ← Nat.shiftLeft_eq, ← Nat.shiftLeft_eq, ← Nat.shiftLeft_add_eq_or_of_lt (by omega),
    ← Nat.shiftLeft_add_eq_or_of_lt (by omega), ← Nat.shiftLeft_add_eq_or_of_lt (by omega)]
  simp only [Nat.shiftLeft_eq]
  omega

theorem toNat_packNNN (c : Nibble) (nnn : Addr12) : (packNNN c nnn).toNat = 4096 * c.toNat + nnn.toNat := by
  have := nnn.isLt
  simp only [packNNN, BitVec.toNat_append]
  rw [← Nat.shiftLeft_add_eq_or_of_lt (by omega), Nat.shiftLeft_eq]
  omega

theorem toNat_packXKK (c : Nibble) (x : Reg) (kk : Byte) :
    (packXKK c x kk).toNat = 4096 * c.toNat + 256 * x.val + kk.toNat := by
  have := byte_lt kk; have := reg_lt x; have hx := toNat_regNibble x
  simp only [packXKK, BitVec.toNat_append, Config.regBits]
  rw [← Nat.shiftLeft_add_eq_or_of_lt (by omega), ← Nat.shiftLeft_add_eq_or_of_lt (by omega), hx]
  simp only [Nat.shiftLeft_eq]
  omega

theorem toNat_wordOfBytes (hi lo : Byte) : (wordOfBytes hi lo).toNat = 256 * hi.toNat + lo.toNat := by
  have := byte_lt lo
  simp only [wordOfBytes, BitVec.toNat_append, Config.regBits]
  rw [← Nat.shiftLeft_add_eq_or_of_lt (by omega), Nat.shiftLeft_eq]
  omega

/-! ### Fields as numbers -/

theorem toNat_fieldClass (w : Word) : (fieldClass w).toNat = w.toNat / 4096 := by
  have := w.isLt
  simp only [fieldClass, BitVec.extractLsb'_toNat, Nat.shiftRight_eq_div_pow]
  omega

theorem val_fieldX (w : Word) : (fieldX w).val = w.toNat / 256 % 16 := by
  simp [fieldX, nibbleReg, BitVec.extractLsb'_toNat, Nat.shiftRight_eq_div_pow]

theorem val_fieldY (w : Word) : (fieldY w).val = w.toNat / 16 % 16 := by
  simp [fieldY, nibbleReg, BitVec.extractLsb'_toNat, Nat.shiftRight_eq_div_pow]

theorem toNat_fieldN (w : Word) : (fieldN w).toNat = w.toNat % 16 := by
  simp [fieldN, BitVec.extractLsb'_toNat]

theorem toNat_fieldKK (w : Word) : (fieldKK w).toNat = w.toNat % 256 := by
  simp [fieldKK, BitVec.extractLsb'_toNat]

theorem toNat_fieldNNN (w : Word) : (fieldNNN w).toNat = w.toNat % 4096 := by
  simp [fieldNNN, BitVec.extractLsb'_toNat]

/-! ### The fields of a packed word -/

@[simp] theorem fieldClass_packNNN (c : Nibble) (nnn : Addr12) : fieldClass (packNNN c nnn) = c := by
  apply BitVec.eq_of_toNat_eq
  have := nnn.isLt
  rw [toNat_fieldClass, toNat_packNNN]
  omega

@[simp] theorem fieldNNN_packNNN (c : Nibble) (nnn : Addr12) : fieldNNN (packNNN c nnn) = nnn := by
  apply BitVec.eq_of_toNat_eq
  have := nnn.isLt
  rw [toNat_fieldNNN, toNat_packNNN]
  omega

@[simp] theorem fieldClass_packXKK (c : Nibble) (x : Reg) (kk : Byte) : fieldClass (packXKK c x kk) = c := by
  apply BitVec.eq_of_toNat_eq
  have := byte_lt kk; have := reg_lt x
  rw [toNat_fieldClass, toNat_packXKK]
  omega

@[simp] theorem fieldX_packXKK (c : Nibble) (x : Reg) (kk : Byte) : fieldX (packXKK c x kk) = x := by
  apply Fin.ext
  have := byte_lt kk; have := reg_lt x
  rw [val_fieldX, toNat_packXKK]
  omega

@[simp] theorem fieldKK_packXKK (c : Nibble) (x : Reg) (kk : Byte) : fieldKK (packXKK c x kk) = kk := by
  apply BitVec.eq_of_toNat_eq
  have := byte_lt kk; have := reg_lt x
  rw [toNat_fieldKK, toNat_packXKK]
  omega

theorem toNat_packXY (c : Nibble) (x y : Reg) (n : Nibble) :
    (packXY c x y n).toNat = 4096 * c.toNat + 256 * x.val + 16 * y.val + n.toNat := by
  rw [packXY, toNat_pack, toNat_regNibble, toNat_regNibble]

@[simp] theorem fieldClass_packXY (c : Nibble) (x y : Reg) (n : Nibble) : fieldClass (packXY c x y n) = c := by
  apply BitVec.eq_of_toNat_eq
  have := n.isLt; have := reg_lt x; have := reg_lt y
  rw [toNat_fieldClass, toNat_packXY]
  omega

@[simp] theorem fieldX_packXY (c : Nibble) (x y : Reg) (n : Nibble) : fieldX (packXY c x y n) = x := by
  apply Fin.ext
  have := n.isLt; have := reg_lt x; have := reg_lt y
  rw [val_fieldX, toNat_packXY]
  omega

@[simp] theorem fieldY_packXY (c : Nibble) (x y : Reg) (n : Nibble) : fieldY (packXY c x y n) = y := by
  apply Fin.ext
  have := n.isLt; have := reg_lt x; have := reg_lt y
  rw [val_fieldY, toNat_packXY]
  omega

@[simp] theorem fieldN_packXY (c : Nibble) (x y : Reg) (n : Nibble) : fieldN (packXY c x y n) = n := by
  apply BitVec.eq_of_toNat_eq
  have := n.isLt; have := reg_lt x; have := reg_lt y
  rw [toNat_fieldN, toNat_packXY]
  omega

/-! ### A packed word from its number -/

theorem ofNat_eq_of_toNat {w : Word} {k : Nat} (h : w.toNat = k) : BitVec.ofNat 16 k = w := by
  rw [← h, BitVec.ofNat_toNat, BitVec.setWidth_eq]

theorem ofNat_packNNN (c : Nibble) (nnn : Addr12) : BitVec.ofNat 16 (4096 * c.toNat + nnn.toNat) = packNNN c nnn :=
  ofNat_eq_of_toNat (toNat_packNNN c nnn)

theorem ofNat_packXKK (c : Nibble) (x : Reg) (kk : Byte) :
    BitVec.ofNat 16 (4096 * c.toNat + 256 * x.val + kk.toNat) = packXKK c x kk :=
  ofNat_eq_of_toNat (toNat_packXKK c x kk)

theorem ofNat_packXY (c : Nibble) (x y : Reg) (n : Nibble) :
    BitVec.ofNat 16 (4096 * c.toNat + 256 * x.val + 16 * y.val + n.toNat) = packXY c x y n :=
  ofNat_eq_of_toNat (toNat_packXY c x y n)

/-! ### A word rebuilt from its fields -/

theorem packNNN_fields (w : Word) : packNNN (fieldClass w) (fieldNNN w) = w := by
  apply BitVec.eq_of_toNat_eq
  rw [toNat_packNNN, toNat_fieldClass, toNat_fieldNNN]
  omega

theorem packXKK_fields (w : Word) : packXKK (fieldClass w) (fieldX w) (fieldKK w) = w := by
  apply BitVec.eq_of_toNat_eq
  rw [toNat_packXKK, toNat_fieldClass, val_fieldX, toNat_fieldKK]
  omega

theorem packXY_fields (w : Word) : packXY (fieldClass w) (fieldX w) (fieldY w) (fieldN w) = w := by
  apply BitVec.eq_of_toNat_eq
  rw [toNat_packXY, toNat_fieldClass, val_fieldX, val_fieldY, toNat_fieldN]
  omega

/-! ### The bytes of a word -/

theorem wordOfBytes_bytesOfWord (w : Word) : wordOfBytes (w.extractLsb' 8 8) (w.extractLsb' 0 8) = w := by
  apply BitVec.eq_of_toNat_eq
  have := w.isLt
  rw [toNat_wordOfBytes]
  simp only [BitVec.extractLsb'_toNat, Nat.shiftRight_eq_div_pow, Config.regBits]
  omega

/-- The byte decoder on the bytes of a word is the word decoder. -/
theorem decode_bytesOfWord (w : Word) (rest : List Byte) :
    decode (bytesOfWord w ++ rest) =
      match decodeWord w with
      | some i => .instr i rest
      | none => .unknownOpcode w rest := by
  show (match decodeWord (wordOfBytes (w.extractLsb' 8 8) (w.extractLsb' 0 8)) with
    | some i => DecodedBytes.instr i rest
    | none => .unknownOpcode (wordOfBytes (w.extractLsb' 8 8) (w.extractLsb' 0 8)) rest) = _
  rw [wordOfBytes_bytesOfWord]

theorem decodeTableWord_eq (nbits w : Nat) : decodeTableWord nbits w = decodeWord (tableWord nbits w) := by
  have h := decode_bytesOfWord (tableWord nbits w) []
  rw [List.append_nil] at h
  rw [decodeTableWord, h]
  cases decodeWord (tableWord nbits w) <;> rfl

/-! ### The masks of the opcode map (R95): each keeps the fields its class compares -/

theorem eq_of_sixteen_bits {a b : Word} (h : ∀ i ∈ List.range 16, a.getLsbD i = b.getLsbD i) : a = b :=
  BitVec.eq_of_getLsbD_eq fun i hi => h i (List.mem_range.2 hi)

theorem getLsbD_packNNN (c : Nibble) (nnn : Addr12) (i : Nat) :
    (packNNN c nnn).getLsbD i = if i < 12 then nnn.getLsbD i else c.getLsbD (i - 12) := BitVec.getLsbD_append

theorem getLsbD_packXKK (c : Nibble) (x : Reg) (kk : Byte) (i : Nat) :
    (packXKK c x kk).getLsbD i =
      if i < 8 then kk.getLsbD i else if i - 8 < 4 then (regNibble x).getLsbD (i - 8) else c.getLsbD (i - 8 - 4) := by
  show ((c ++ regNibble x : BitVec (4 + 4)) ++ kk : BitVec (4 + 4 + 8)).getLsbD i = _
  rw [BitVec.getLsbD_append, BitVec.getLsbD_append]

theorem getLsbD_pack (c x y n : Nibble) (i : Nat) :
    (pack c x y n).getLsbD i =
      if i < 4 then n.getLsbD i else if i - 4 < 4 then y.getLsbD (i - 4)
      else if i - 4 - 4 < 4 then x.getLsbD (i - 4 - 4) else c.getLsbD (i - 4 - 4 - 4) := by
  show (((c ++ x : BitVec (4 + 4)) ++ y : BitVec (4 + 4 + 4)) ++ n : BitVec (4 + 4 + 4 + 4)).getLsbD i = _
  rw [BitVec.getLsbD_append, BitVec.getLsbD_append, BitVec.getLsbD_append]

theorem and_mask_class (w : Word) : w &&& 0xF000#16 = packNNN (fieldClass w) 0 := by
  apply eq_of_sixteen_bits
  simp [-BitVec.getLsbD_eq_getElem, List.range, List.range.loop, getLsbD_packNNN, fieldClass]

theorem and_mask_classN (w : Word) : w &&& 0xF00F#16 = packXY (fieldClass w) 0 0 (fieldN w) := by
  apply eq_of_sixteen_bits
  simp [-BitVec.getLsbD_eq_getElem, List.range, List.range.loop, packXY, getLsbD_pack, regNibble, fieldClass, fieldN]

theorem and_mask_classKK (w : Word) : w &&& 0xF0FF#16 = packXKK (fieldClass w) 0 (fieldKK w) := by
  apply eq_of_sixteen_bits
  simp [-BitVec.getLsbD_eq_getElem, List.range, List.range.loop, getLsbD_packXKK, regNibble, fieldClass, fieldKK]

theorem fieldClass_and_class (w : Word) : fieldClass (w &&& 0xF000#16) = fieldClass w := by rw [and_mask_class]; simp
theorem fieldClass_and_classN (w : Word) : fieldClass (w &&& 0xF00F#16) = fieldClass w := by rw [and_mask_classN]; simp
theorem fieldN_and_classN (w : Word) : fieldN (w &&& 0xF00F#16) = fieldN w := by rw [and_mask_classN]; simp
theorem fieldClass_and_classKK (w : Word) : fieldClass (w &&& 0xF0FF#16) = fieldClass w := by rw [and_mask_classKK]; simp
theorem fieldKK_and_classKK (w : Word) : fieldKK (w &&& 0xF0FF#16) = fieldKK w := by rw [and_mask_classKK]; simp
theorem and_mask_word (w : Word) : w &&& 0xFFFF#16 = w := by simpa using BitVec.and_allOnes (x := w)

/-- A row that accepts a word fixes what the decoder looks at, and the decoder answers that row's instruction. -/
theorem decodeWord_of_accepts {r : OpcodeRow} (hr : r ∈ opcodeTable) {w : Word} (h : r.accepts w = true) :
    (decodeWord w).map Instr.mnemonic = some r.mnemonic := by
  rw [OpcodeRow.accepts, beq_iff_eq] at h
  have hc := congrArg fieldClass h
  have hn := congrArg fieldN h
  have hk := congrArg fieldKK h
  simp only [opcodeTable, List.cons_append, List.nil_append, List.mem_cons, List.not_mem_nil, or_false] at hr
  rcases hr with rfl | rfl | rfl | rfl | rfl | rfl | rfl | rfl | rfl | rfl | rfl | rfl | rfl | rfl | rfl | rfl | rfl |
    rfl | rfl | rfl | rfl | rfl | rfl | rfl | rfl | rfl | rfl | rfl | rfl | rfl | rfl | rfl | rfl | rfl
  · rw [← and_mask_word w, show w &&& 0xFFFF#16 = 0x00E0#16 from h]; rfl
  · rw [← and_mask_word w, show w &&& 0xFFFF#16 = 0x00EE#16 from h]; rfl
  all_goals
    first
    | rw [decodeWord, (fieldClass_and_class w).symm.trans hc]; rfl
    | rw [decodeWord, (fieldClass_and_classN w).symm.trans hc]
      show Option.map _ (decodeClass8 w) = _
      rw [decodeClass8, (fieldN_and_classN w).symm.trans hn]; rfl
    | rw [decodeWord, (fieldClass_and_classKK w).symm.trans hc]
      show Option.map _ (decodeClassE w) = _
      rw [decodeClassE, (fieldKK_and_classKK w).symm.trans hk]; rfl
    | rw [decodeWord, (fieldClass_and_classKK w).symm.trans hc]
      show Option.map _ (decodeClassF w) = _
      rw [decodeClassF, (fieldKK_and_classKK w).symm.trans hk]; rfl

end Sys2Proof
end

