-- ==== Sys2Proof/Laws/Memory.lean ====
section
/-! SUPPORT. The laws of memory (spec/20_memory.md R60, R65 to R70): a read after a write, what a write leaves alone,
that every memory operation keeps the canonical form, and that two memories in canonical form that read alike are
equal. -/

namespace Sys2Proof.Machine

@[simp] theorem Memory.read_nil (a : Nat) : Memory.read [] a = Config.resetByte a := rfl

theorem Memory.read_cons (k : Nat) (b : Byte) (m : Memory) (a : Nat) :
    Memory.read ((k, b) :: m) a = if k = a then b else Memory.read m a := rfl

theorem Memory.wfFrom_cons (lo k : Nat) (b : Byte) (m : Memory) :
    Memory.wfFrom lo ((k, b) :: m) = true ↔
      lo ≤ k ∧ k < Config.memSize ∧ b ≠ Config.resetByte k ∧ Memory.wfFrom (k + 1) m = true := by
  simp [Memory.wfFrom, and_assoc]

theorem Memory.wfFrom_mono {lo hi : Nat} (h : lo ≤ hi) : ∀ {m : Memory}, m.wfFrom hi = true → m.wfFrom lo = true
  | [], _ => rfl
  | (k, b) :: m, hm => by
    rw [Memory.wfFrom_cons] at hm ⊢
    exact ⟨Nat.le_trans h hm.1, hm.2⟩

/-- Below every listed address memory holds what reset left there. -/
theorem Memory.read_of_lt {lo a : Nat} (h : a < lo) : ∀ {m : Memory}, m.wfFrom lo = true → m.read a = Config.resetByte a
  | [], _ => rfl
  | (k, b) :: m, hm => by
    rw [Memory.wfFrom_cons] at hm
    rw [Memory.read_cons, if_neg (by omega)]
    exact Memory.read_of_lt (by omega) hm.2.2.2

theorem Memory.read_put_ne {a c : Nat} (b : Byte) (h : c ≠ a) : ∀ m : Memory, (m.put a b).read c = m.read c
  | [] => by
    unfold Memory.put
    split <;> simp [Memory.read, Ne.symm h]
  | (k, d) :: m => by
    unfold Memory.put
    split
    · split <;> simp [Memory.read, Ne.symm h]
    · split
      · next hak => subst hak; split <;> simp [Memory.read, Ne.symm h]
      · rw [Memory.read_cons, Memory.read_cons, Memory.read_put_ne b h m]

theorem Memory.read_put_same {a : Nat} (b : Byte) : ∀ {lo : Nat} {m : Memory}, m.wfFrom lo = true → (m.put a b).read a = b
  | _, [], _ => by
    unfold Memory.put
    split
    · next h => exact h.symm
    · simp [Memory.read]
  | lo, (k, d) :: m, hm => by
    have hm' := (Memory.wfFrom_cons lo k d m).1 hm
    unfold Memory.put
    split
    · next hak =>
      split
      · next hb => rw [hb]; exact Memory.read_of_lt (Nat.lt_succ_self a) (Memory.wfFrom_mono (lo := a + 1) (hi := k) hak
          ((Memory.wfFrom_cons k k d m).2 ⟨Nat.le_refl k, hm'.2⟩))
      · simp [Memory.read]
    · split
      · next hak =>
        subst hak
        split
        · next hb => rw [hb]; exact Memory.read_of_lt (Nat.lt_succ_self a) hm'.2.2.2
        · simp [Memory.read]
      · next hlt hne =>
        rw [Memory.read_cons, if_neg (Ne.symm hne)]
        exact Memory.read_put_same b hm'.2.2.2

theorem Memory.wfFrom_put {a : Nat} (b : Byte) (ha : a < Config.memSize) :
    ∀ {lo : Nat} {m : Memory}, lo ≤ a → m.wfFrom lo = true → (m.put a b).wfFrom lo = true
  | lo, [], h, _ => by
    unfold Memory.put
    split
    · rfl
    · next hb => exact (Memory.wfFrom_cons lo a b []).2 ⟨h, ha, hb, rfl⟩
  | lo, (k, d) :: m, h, hm => by
    have hm' := (Memory.wfFrom_cons lo k d m).1 hm
    unfold Memory.put
    split
    · next hak =>
      split
      · exact hm
      · next hb => exact (Memory.wfFrom_cons lo a b _).2 ⟨h, ha, hb,
          (Memory.wfFrom_cons (a + 1) k d m).2 ⟨hak, hm'.2⟩⟩
    · split
      · next hak =>
        subst hak
        split
        · exact Memory.wfFrom_mono (by omega) hm'.2.2.2
        · next hb => exact (Memory.wfFrom_cons lo a b m).2 ⟨h, ha, hb, hm'.2.2.2⟩
      · next hlt hne =>
        exact (Memory.wfFrom_cons lo k d _).2 ⟨hm'.1, hm'.2.1, hm'.2.2.1,
          Memory.wfFrom_put b ha (by omega) hm'.2.2.2⟩

/-! ### One byte -/

@[simp] theorem Memory.wf_nil : Memory.wf [] = true := rfl

theorem Memory.wf_write {m : Memory} (h : m.wf = true) (a : Nat) (b : Byte) : (m.write a b).wf = true := by
  unfold Memory.write
  split
  · next ha => exact Memory.wfFrom_put b ha (Nat.zero_le a) h
  · exact h

theorem Memory.read_write_same {m : Memory} (h : m.wf = true) {a : Nat} (ha : a < 4096) (b : Byte) :
    (m.write a b).read a = b := by
  unfold Memory.write
  rw [if_pos ha]
  exact Memory.read_put_same b h

theorem Memory.read_write_ne (m : Memory) {a c : Nat} (b : Byte) (h : c ≠ a) : (m.write a b).read c = m.read c := by
  unfold Memory.write
  split
  · exact Memory.read_put_ne b h m
  · rfl

/-! ### Runs of bytes -/

theorem Memory.wf_writeBytes : ∀ (bs : List Byte) {m : Memory} (_ : m.wf = true) (a : Nat), (m.writeBytes a bs).wf = true
  | [], _, h, _ => h
  | b :: bs, _, h, a => Memory.wf_writeBytes bs (Memory.wf_write h a b) (a + 1)

theorem Memory.read_writeBytes_outside : ∀ (bs : List Byte) (m : Memory) (a c : Nat), (c < a ∨ a + bs.length ≤ c) →
    (m.writeBytes a bs).read c = m.read c
  | [], _, _, _, _ => rfl
  | b :: bs, m, a, c, h => by
    rw [List.length_cons] at h
    rw [Memory.writeBytes, Memory.read_writeBytes_outside bs _ _ _ (by omega), Memory.read_write_ne m b (by omega)]

theorem Memory.read_writeBytes_inside : ∀ (bs : List Byte) {m : Memory} (_ : m.wf = true) (a k : Nat) (hk : k < bs.length),
    a + bs.length ≤ 4096 → (m.writeBytes a bs).read (a + k) = bs[k]
  | [], _, _, _, k, hk, _ => absurd hk (Nat.not_lt_zero k)
  | b :: bs, m, h, a, 0, _, hr => by
    rw [List.length_cons] at hr
    rw [Memory.writeBytes, Memory.read_writeBytes_outside bs _ _ _ (by omega)]
    exact Memory.read_write_same h (by omega) b
  | b :: bs, m, h, a, k + 1, hk, hr => by
    rw [List.length_cons] at hk hr
    have := Memory.read_writeBytes_inside bs (Memory.wf_write h a b) (a + 1) k (by omega) (by omega)
    rw [Memory.writeBytes, show a + (k + 1) = a + 1 + k by omega, this, List.getElem_cons_succ]

/-- What any address holds after consecutive bytes within memory are written: the byte written there, or what it held. -/
theorem Memory.read_writeBytes {m : Memory} (h : m.wf = true) (bs : List Byte) (a c : Nat) (hr : a + bs.length ≤ 4096) :
    (m.writeBytes a bs).read c = if a ≤ c ∧ c < a + bs.length then bs.getD (c - a) 0 else m.read c := by
  split
  · have := Memory.read_writeBytes_inside bs h a (c - a) (by omega) (by omega)
    rw [show a + (c - a) = c by omega] at this
    rw [this, List.getD_eq_getElem?_getD, List.getElem?_eq_getElem (by omega), Option.getD_some]
  · exact Memory.read_writeBytes_outside _ _ _ _ (by omega)

@[simp] theorem Memory.length_readBytes (m : Memory) : ∀ (n a : Nat), (m.readBytes a n).length = n
  | 0, _ => rfl
  | n + 1, a => by rw [Memory.readBytes, List.length_cons, Memory.length_readBytes m n (a + 1)]

theorem Memory.getElem?_readBytes (m : Memory) : ∀ (n a k : Nat), k < n → (m.readBytes a n)[k]? = some (m.read (a + k))
  | 0, _, k, h => absurd h (Nat.not_lt_zero k)
  | n + 1, a, 0, _ => by simp [Memory.readBytes]
  | n + 1, a, k + 1, h => by
    rw [Memory.readBytes, List.getElem?_cons_succ, Memory.getElem?_readBytes m n (a + 1) k (by omega),
      show a + 1 + k = a + (k + 1) by omega]

/-! ### The canonical form is unique -/

theorem Memory.eq_of_read_from : ∀ {lo : Nat} {m n : Memory}, m.wfFrom lo = true → n.wfFrom lo = true →
    (∀ a, m.read a = n.read a) → m = n
  | _, [], [], _, _, _ => rfl
  | lo, [], (k, b) :: n, _, hn, h => by
    have hn' := (Memory.wfFrom_cons lo k b n).1 hn
    have := h k
    simp [Memory.read] at this
    exact absurd this.symm hn'.2.2.1
  | lo, (k, b) :: m, [], hm, _, h => by
    have hm' := (Memory.wfFrom_cons lo k b m).1 hm
    have := h k
    simp [Memory.read] at this
    exact absurd this hm'.2.2.1
  | lo, (k, b) :: m, (l, c) :: n, hm, hn, h => by
    have hm' := (Memory.wfFrom_cons lo k b m).1 hm
    have hn' := (Memory.wfFrom_cons lo l c n).1 hn
    have hkl : k = l := by
      rcases Nat.lt_trichotomy k l with hlt | heq | hgt
      · exfalso
        have hr : Memory.read ((l, c) :: n) k = Config.resetByte k := Memory.read_of_lt hlt
          ((Memory.wfFrom_cons l l c n).2 ⟨Nat.le_refl l, hn'.2⟩)
        have := h k
        rw [hr, Memory.read_cons, if_pos rfl] at this
        exact hm'.2.2.1 this
      · exact heq
      · exfalso
        have hr : Memory.read ((k, b) :: m) l = Config.resetByte l := Memory.read_of_lt hgt
          ((Memory.wfFrom_cons k k b m).2 ⟨Nat.le_refl k, hm'.2⟩)
        have := h l
        rw [hr, Memory.read_cons, if_pos rfl] at this
        exact hn'.2.2.1 this.symm
    subst hkl
    have hb : b = c := by simpa [Memory.read] using h k
    subst hb
    congr 1
    refine Memory.eq_of_read_from hm'.2.2.2 hn'.2.2.2 fun a => ?_
    rcases Nat.lt_or_ge a (k + 1) with hlt | hge
    · rw [Memory.read_of_lt hlt hm'.2.2.2, Memory.read_of_lt hlt hn'.2.2.2]
    · have := h a
      rwa [Memory.read_cons, Memory.read_cons, if_neg (by omega), if_neg (by omega)] at this

/-- Two memories in canonical form that read alike are the same list. -/
theorem Memory.eq_of_read {m n : Memory} (hm : m.wf = true) (hn : n.wf = true) (h : ∀ a, m.read a = n.read a) : m = n :=
  Memory.eq_of_read_from hm hn h

/-! ### Bounds (R65 to R67) -/

theorem outOfRange_eq_none {base len : Nat} : outOfRange base len = none ↔ len = 0 ∨ base + len ≤ 4096 := by
  rw [outOfRange]
  split <;> simp_all

theorem outOfRange_eq_some {base len a : Nat} :
    outOfRange base len = some a ↔ len ≠ 0 ∧ 4096 < base + len ∧ a = max base 4096 := by
  unfold outOfRange
  split
  · next h => simp only [Config.memSize] at h; simp; omega
  · next h =>
    simp only [Config.memSize, not_or] at h
    simp only [Config.memSize, Option.some.injEq]
    constructor
    · intro e; exact ⟨h.1, by omega, e.symm⟩
    · intro e; exact e.2.2.symm

end Sys2Proof.Machine
end

