-- ==== Sys2Proof/Laws/State.lean ====
section
/-! SUPPORT. One lemma per field per update of the state, each true by rfl: a later proof rewrites with these and never
unfolds a record update. After them, reading one register after each register update. -/

namespace Sys2Proof.Machine


/-! `State.setReg` -/

@[simp] theorem State.setReg_mem (s : State) (x : Reg) (b : Byte) : (s.setReg x b).mem = s.mem := rfl
@[simp] theorem State.setReg_v (s : State) (x : Reg) (b : Byte) : (s.setReg x b).v = s.v.set x.val b := rfl
@[simp] theorem State.setReg_I (s : State) (x : Reg) (b : Byte) : (s.setReg x b).I = s.I := rfl
@[simp] theorem State.setReg_pc (s : State) (x : Reg) (b : Byte) : (s.setReg x b).pc = s.pc := rfl
@[simp] theorem State.setReg_stack (s : State) (x : Reg) (b : Byte) : (s.setReg x b).stack = s.stack := rfl
@[simp] theorem State.setReg_sp (s : State) (x : Reg) (b : Byte) : (s.setReg x b).sp = s.sp := rfl
@[simp] theorem State.setReg_dt (s : State) (x : Reg) (b : Byte) : (s.setReg x b).dt = s.dt := rfl
@[simp] theorem State.setReg_st (s : State) (x : Reg) (b : Byte) : (s.setReg x b).st = s.st := rfl
@[simp] theorem State.setReg_fb (s : State) (x : Reg) (b : Byte) : (s.setReg x b).fb = s.fb := rfl
@[simp] theorem State.setReg_dirty (s : State) (x : Reg) (b : Byte) : (s.setReg x b).dirty = s.dirty := rfl
@[simp] theorem State.setReg_key (s : State) (x : Reg) (b : Byte) : (s.setReg x b).key = s.key := rfl
@[simp] theorem State.setReg_cycleCount (s : State) (x : Reg) (b : Byte) : (s.setReg x b).cycleCount = s.cycleCount := rfl
@[simp] theorem State.setReg_currentInstruction (s : State) (x : Reg) (b : Byte) : (s.setReg x b).currentInstruction = s.currentInstruction := rfl
@[simp] theorem State.setReg_halted (s : State) (x : Reg) (b : Byte) : (s.setReg x b).halted = s.halted := rfl
@[simp] theorem State.setReg_faultCause (s : State) (x : Reg) (b : Byte) : (s.setReg x b).faultCause = s.faultCause := rfl
@[simp] theorem State.setReg_faultInfo (s : State) (x : Reg) (b : Byte) : (s.setReg x b).faultInfo = s.faultInfo := rfl
@[simp] theorem State.setReg_rndInjected (s : State) (x : Reg) (b : Byte) : (s.setReg x b).rndInjected = s.rndInjected := rfl
@[simp] theorem State.setReg_rndDrawn (s : State) (x : Reg) (b : Byte) : (s.setReg x b).rndDrawn = s.rndDrawn := rfl

/-! `State.setI` -/

@[simp] theorem State.setI_mem (s : State) (w : IndexWord) : (s.setI w).mem = s.mem := rfl
@[simp] theorem State.setI_v (s : State) (w : IndexWord) : (s.setI w).v = s.v := rfl
@[simp] theorem State.setI_I (s : State) (w : IndexWord) : (s.setI w).I = w := rfl
@[simp] theorem State.setI_pc (s : State) (w : IndexWord) : (s.setI w).pc = s.pc := rfl
@[simp] theorem State.setI_stack (s : State) (w : IndexWord) : (s.setI w).stack = s.stack := rfl
@[simp] theorem State.setI_sp (s : State) (w : IndexWord) : (s.setI w).sp = s.sp := rfl
@[simp] theorem State.setI_dt (s : State) (w : IndexWord) : (s.setI w).dt = s.dt := rfl
@[simp] theorem State.setI_st (s : State) (w : IndexWord) : (s.setI w).st = s.st := rfl
@[simp] theorem State.setI_fb (s : State) (w : IndexWord) : (s.setI w).fb = s.fb := rfl
@[simp] theorem State.setI_dirty (s : State) (w : IndexWord) : (s.setI w).dirty = s.dirty := rfl
@[simp] theorem State.setI_key (s : State) (w : IndexWord) : (s.setI w).key = s.key := rfl
@[simp] theorem State.setI_cycleCount (s : State) (w : IndexWord) : (s.setI w).cycleCount = s.cycleCount := rfl
@[simp] theorem State.setI_currentInstruction (s : State) (w : IndexWord) : (s.setI w).currentInstruction = s.currentInstruction := rfl
@[simp] theorem State.setI_halted (s : State) (w : IndexWord) : (s.setI w).halted = s.halted := rfl
@[simp] theorem State.setI_faultCause (s : State) (w : IndexWord) : (s.setI w).faultCause = s.faultCause := rfl
@[simp] theorem State.setI_faultInfo (s : State) (w : IndexWord) : (s.setI w).faultInfo = s.faultInfo := rfl
@[simp] theorem State.setI_rndInjected (s : State) (w : IndexWord) : (s.setI w).rndInjected = s.rndInjected := rfl
@[simp] theorem State.setI_rndDrawn (s : State) (w : IndexWord) : (s.setI w).rndDrawn = s.rndDrawn := rfl

/-! `State.setPc` -/

@[simp] theorem State.setPc_mem (s : State) (w : PcWord) : (s.setPc w).mem = s.mem := rfl
@[simp] theorem State.setPc_v (s : State) (w : PcWord) : (s.setPc w).v = s.v := rfl
@[simp] theorem State.setPc_I (s : State) (w : PcWord) : (s.setPc w).I = s.I := rfl
@[simp] theorem State.setPc_pc (s : State) (w : PcWord) : (s.setPc w).pc = w := rfl
@[simp] theorem State.setPc_stack (s : State) (w : PcWord) : (s.setPc w).stack = s.stack := rfl
@[simp] theorem State.setPc_sp (s : State) (w : PcWord) : (s.setPc w).sp = s.sp := rfl
@[simp] theorem State.setPc_dt (s : State) (w : PcWord) : (s.setPc w).dt = s.dt := rfl
@[simp] theorem State.setPc_st (s : State) (w : PcWord) : (s.setPc w).st = s.st := rfl
@[simp] theorem State.setPc_fb (s : State) (w : PcWord) : (s.setPc w).fb = s.fb := rfl
@[simp] theorem State.setPc_dirty (s : State) (w : PcWord) : (s.setPc w).dirty = s.dirty := rfl
@[simp] theorem State.setPc_key (s : State) (w : PcWord) : (s.setPc w).key = s.key := rfl
@[simp] theorem State.setPc_cycleCount (s : State) (w : PcWord) : (s.setPc w).cycleCount = s.cycleCount := rfl
@[simp] theorem State.setPc_currentInstruction (s : State) (w : PcWord) : (s.setPc w).currentInstruction = s.currentInstruction := rfl
@[simp] theorem State.setPc_halted (s : State) (w : PcWord) : (s.setPc w).halted = s.halted := rfl
@[simp] theorem State.setPc_faultCause (s : State) (w : PcWord) : (s.setPc w).faultCause = s.faultCause := rfl
@[simp] theorem State.setPc_faultInfo (s : State) (w : PcWord) : (s.setPc w).faultInfo = s.faultInfo := rfl
@[simp] theorem State.setPc_rndInjected (s : State) (w : PcWord) : (s.setPc w).rndInjected = s.rndInjected := rfl
@[simp] theorem State.setPc_rndDrawn (s : State) (w : PcWord) : (s.setPc w).rndDrawn = s.rndDrawn := rfl

/-! `State.setMem` -/

@[simp] theorem State.setMem_mem (s : State) (m : Memory) : (s.setMem m).mem = m := rfl
@[simp] theorem State.setMem_v (s : State) (m : Memory) : (s.setMem m).v = s.v := rfl
@[simp] theorem State.setMem_I (s : State) (m : Memory) : (s.setMem m).I = s.I := rfl
@[simp] theorem State.setMem_pc (s : State) (m : Memory) : (s.setMem m).pc = s.pc := rfl
@[simp] theorem State.setMem_stack (s : State) (m : Memory) : (s.setMem m).stack = s.stack := rfl
@[simp] theorem State.setMem_sp (s : State) (m : Memory) : (s.setMem m).sp = s.sp := rfl
@[simp] theorem State.setMem_dt (s : State) (m : Memory) : (s.setMem m).dt = s.dt := rfl
@[simp] theorem State.setMem_st (s : State) (m : Memory) : (s.setMem m).st = s.st := rfl
@[simp] theorem State.setMem_fb (s : State) (m : Memory) : (s.setMem m).fb = s.fb := rfl
@[simp] theorem State.setMem_dirty (s : State) (m : Memory) : (s.setMem m).dirty = s.dirty := rfl
@[simp] theorem State.setMem_key (s : State) (m : Memory) : (s.setMem m).key = s.key := rfl
@[simp] theorem State.setMem_cycleCount (s : State) (m : Memory) : (s.setMem m).cycleCount = s.cycleCount := rfl
@[simp] theorem State.setMem_currentInstruction (s : State) (m : Memory) : (s.setMem m).currentInstruction = s.currentInstruction := rfl
@[simp] theorem State.setMem_halted (s : State) (m : Memory) : (s.setMem m).halted = s.halted := rfl
@[simp] theorem State.setMem_faultCause (s : State) (m : Memory) : (s.setMem m).faultCause = s.faultCause := rfl
@[simp] theorem State.setMem_faultInfo (s : State) (m : Memory) : (s.setMem m).faultInfo = s.faultInfo := rfl
@[simp] theorem State.setMem_rndInjected (s : State) (m : Memory) : (s.setMem m).rndInjected = s.rndInjected := rfl
@[simp] theorem State.setMem_rndDrawn (s : State) (m : Memory) : (s.setMem m).rndDrawn = s.rndDrawn := rfl

/-! `State.setRegs` -/

@[simp] theorem State.setRegs_mem (s : State) (r : Vector Byte Config.numRegs) : (s.setRegs r).mem = s.mem := rfl
@[simp] theorem State.setRegs_v (s : State) (r : Vector Byte Config.numRegs) : (s.setRegs r).v = r := rfl
@[simp] theorem State.setRegs_I (s : State) (r : Vector Byte Config.numRegs) : (s.setRegs r).I = s.I := rfl
@[simp] theorem State.setRegs_pc (s : State) (r : Vector Byte Config.numRegs) : (s.setRegs r).pc = s.pc := rfl
@[simp] theorem State.setRegs_stack (s : State) (r : Vector Byte Config.numRegs) : (s.setRegs r).stack = s.stack := rfl
@[simp] theorem State.setRegs_sp (s : State) (r : Vector Byte Config.numRegs) : (s.setRegs r).sp = s.sp := rfl
@[simp] theorem State.setRegs_dt (s : State) (r : Vector Byte Config.numRegs) : (s.setRegs r).dt = s.dt := rfl
@[simp] theorem State.setRegs_st (s : State) (r : Vector Byte Config.numRegs) : (s.setRegs r).st = s.st := rfl
@[simp] theorem State.setRegs_fb (s : State) (r : Vector Byte Config.numRegs) : (s.setRegs r).fb = s.fb := rfl
@[simp] theorem State.setRegs_dirty (s : State) (r : Vector Byte Config.numRegs) : (s.setRegs r).dirty = s.dirty := rfl
@[simp] theorem State.setRegs_key (s : State) (r : Vector Byte Config.numRegs) : (s.setRegs r).key = s.key := rfl
@[simp] theorem State.setRegs_cycleCount (s : State) (r : Vector Byte Config.numRegs) : (s.setRegs r).cycleCount = s.cycleCount := rfl
@[simp] theorem State.setRegs_currentInstruction (s : State) (r : Vector Byte Config.numRegs) : (s.setRegs r).currentInstruction = s.currentInstruction := rfl
@[simp] theorem State.setRegs_halted (s : State) (r : Vector Byte Config.numRegs) : (s.setRegs r).halted = s.halted := rfl
@[simp] theorem State.setRegs_faultCause (s : State) (r : Vector Byte Config.numRegs) : (s.setRegs r).faultCause = s.faultCause := rfl
@[simp] theorem State.setRegs_faultInfo (s : State) (r : Vector Byte Config.numRegs) : (s.setRegs r).faultInfo = s.faultInfo := rfl
@[simp] theorem State.setRegs_rndInjected (s : State) (r : Vector Byte Config.numRegs) : (s.setRegs r).rndInjected = s.rndInjected := rfl
@[simp] theorem State.setRegs_rndDrawn (s : State) (r : Vector Byte Config.numRegs) : (s.setRegs r).rndDrawn = s.rndDrawn := rfl

/-! `State.setDt` -/

@[simp] theorem State.setDt_mem (s : State) (b : Byte) : (s.setDt b).mem = s.mem := rfl
@[simp] theorem State.setDt_v (s : State) (b : Byte) : (s.setDt b).v = s.v := rfl
@[simp] theorem State.setDt_I (s : State) (b : Byte) : (s.setDt b).I = s.I := rfl
@[simp] theorem State.setDt_pc (s : State) (b : Byte) : (s.setDt b).pc = s.pc := rfl
@[simp] theorem State.setDt_stack (s : State) (b : Byte) : (s.setDt b).stack = s.stack := rfl
@[simp] theorem State.setDt_sp (s : State) (b : Byte) : (s.setDt b).sp = s.sp := rfl
@[simp] theorem State.setDt_dt (s : State) (b : Byte) : (s.setDt b).dt = b := rfl
@[simp] theorem State.setDt_st (s : State) (b : Byte) : (s.setDt b).st = s.st := rfl
@[simp] theorem State.setDt_fb (s : State) (b : Byte) : (s.setDt b).fb = s.fb := rfl
@[simp] theorem State.setDt_dirty (s : State) (b : Byte) : (s.setDt b).dirty = s.dirty := rfl
@[simp] theorem State.setDt_key (s : State) (b : Byte) : (s.setDt b).key = s.key := rfl
@[simp] theorem State.setDt_cycleCount (s : State) (b : Byte) : (s.setDt b).cycleCount = s.cycleCount := rfl
@[simp] theorem State.setDt_currentInstruction (s : State) (b : Byte) : (s.setDt b).currentInstruction = s.currentInstruction := rfl
@[simp] theorem State.setDt_halted (s : State) (b : Byte) : (s.setDt b).halted = s.halted := rfl
@[simp] theorem State.setDt_faultCause (s : State) (b : Byte) : (s.setDt b).faultCause = s.faultCause := rfl
@[simp] theorem State.setDt_faultInfo (s : State) (b : Byte) : (s.setDt b).faultInfo = s.faultInfo := rfl
@[simp] theorem State.setDt_rndInjected (s : State) (b : Byte) : (s.setDt b).rndInjected = s.rndInjected := rfl
@[simp] theorem State.setDt_rndDrawn (s : State) (b : Byte) : (s.setDt b).rndDrawn = s.rndDrawn := rfl

/-! `State.setSt` -/

@[simp] theorem State.setSt_mem (s : State) (b : Byte) : (s.setSt b).mem = s.mem := rfl
@[simp] theorem State.setSt_v (s : State) (b : Byte) : (s.setSt b).v = s.v := rfl
@[simp] theorem State.setSt_I (s : State) (b : Byte) : (s.setSt b).I = s.I := rfl
@[simp] theorem State.setSt_pc (s : State) (b : Byte) : (s.setSt b).pc = s.pc := rfl
@[simp] theorem State.setSt_stack (s : State) (b : Byte) : (s.setSt b).stack = s.stack := rfl
@[simp] theorem State.setSt_sp (s : State) (b : Byte) : (s.setSt b).sp = s.sp := rfl
@[simp] theorem State.setSt_dt (s : State) (b : Byte) : (s.setSt b).dt = s.dt := rfl
@[simp] theorem State.setSt_st (s : State) (b : Byte) : (s.setSt b).st = b := rfl
@[simp] theorem State.setSt_fb (s : State) (b : Byte) : (s.setSt b).fb = s.fb := rfl
@[simp] theorem State.setSt_dirty (s : State) (b : Byte) : (s.setSt b).dirty = s.dirty := rfl
@[simp] theorem State.setSt_key (s : State) (b : Byte) : (s.setSt b).key = s.key := rfl
@[simp] theorem State.setSt_cycleCount (s : State) (b : Byte) : (s.setSt b).cycleCount = s.cycleCount := rfl
@[simp] theorem State.setSt_currentInstruction (s : State) (b : Byte) : (s.setSt b).currentInstruction = s.currentInstruction := rfl
@[simp] theorem State.setSt_halted (s : State) (b : Byte) : (s.setSt b).halted = s.halted := rfl
@[simp] theorem State.setSt_faultCause (s : State) (b : Byte) : (s.setSt b).faultCause = s.faultCause := rfl
@[simp] theorem State.setSt_faultInfo (s : State) (b : Byte) : (s.setSt b).faultInfo = s.faultInfo := rfl
@[simp] theorem State.setSt_rndInjected (s : State) (b : Byte) : (s.setSt b).rndInjected = s.rndInjected := rfl
@[simp] theorem State.setSt_rndDrawn (s : State) (b : Byte) : (s.setSt b).rndDrawn = s.rndDrawn := rfl

/-! `State.setPicture` -/

@[simp] theorem State.setPicture_mem (s : State) (f : Framebuffer) : (s.setPicture f).mem = s.mem := rfl
@[simp] theorem State.setPicture_v (s : State) (f : Framebuffer) : (s.setPicture f).v = s.v := rfl
@[simp] theorem State.setPicture_I (s : State) (f : Framebuffer) : (s.setPicture f).I = s.I := rfl
@[simp] theorem State.setPicture_pc (s : State) (f : Framebuffer) : (s.setPicture f).pc = s.pc := rfl
@[simp] theorem State.setPicture_stack (s : State) (f : Framebuffer) : (s.setPicture f).stack = s.stack := rfl
@[simp] theorem State.setPicture_sp (s : State) (f : Framebuffer) : (s.setPicture f).sp = s.sp := rfl
@[simp] theorem State.setPicture_dt (s : State) (f : Framebuffer) : (s.setPicture f).dt = s.dt := rfl
@[simp] theorem State.setPicture_st (s : State) (f : Framebuffer) : (s.setPicture f).st = s.st := rfl
@[simp] theorem State.setPicture_fb (s : State) (f : Framebuffer) : (s.setPicture f).fb = f := rfl
@[simp] theorem State.setPicture_dirty (s : State) (f : Framebuffer) : (s.setPicture f).dirty = true := rfl
@[simp] theorem State.setPicture_key (s : State) (f : Framebuffer) : (s.setPicture f).key = s.key := rfl
@[simp] theorem State.setPicture_cycleCount (s : State) (f : Framebuffer) : (s.setPicture f).cycleCount = s.cycleCount := rfl
@[simp] theorem State.setPicture_currentInstruction (s : State) (f : Framebuffer) : (s.setPicture f).currentInstruction = s.currentInstruction := rfl
@[simp] theorem State.setPicture_halted (s : State) (f : Framebuffer) : (s.setPicture f).halted = s.halted := rfl
@[simp] theorem State.setPicture_faultCause (s : State) (f : Framebuffer) : (s.setPicture f).faultCause = s.faultCause := rfl
@[simp] theorem State.setPicture_faultInfo (s : State) (f : Framebuffer) : (s.setPicture f).faultInfo = s.faultInfo := rfl
@[simp] theorem State.setPicture_rndInjected (s : State) (f : Framebuffer) : (s.setPicture f).rndInjected = s.rndInjected := rfl
@[simp] theorem State.setPicture_rndDrawn (s : State) (f : Framebuffer) : (s.setPicture f).rndDrawn = s.rndDrawn := rfl

/-! `State.setFlag` -/

@[simp] theorem State.setFlag_mem (s : State) (c : Bool) : (s.setFlag c).mem = s.mem := rfl
@[simp] theorem State.setFlag_v (s : State) (c : Bool) : (s.setFlag c).v = s.v.set 15 (flagByte c) := rfl
@[simp] theorem State.setFlag_I (s : State) (c : Bool) : (s.setFlag c).I = s.I := rfl
@[simp] theorem State.setFlag_pc (s : State) (c : Bool) : (s.setFlag c).pc = s.pc := rfl
@[simp] theorem State.setFlag_stack (s : State) (c : Bool) : (s.setFlag c).stack = s.stack := rfl
@[simp] theorem State.setFlag_sp (s : State) (c : Bool) : (s.setFlag c).sp = s.sp := rfl
@[simp] theorem State.setFlag_dt (s : State) (c : Bool) : (s.setFlag c).dt = s.dt := rfl
@[simp] theorem State.setFlag_st (s : State) (c : Bool) : (s.setFlag c).st = s.st := rfl
@[simp] theorem State.setFlag_fb (s : State) (c : Bool) : (s.setFlag c).fb = s.fb := rfl
@[simp] theorem State.setFlag_dirty (s : State) (c : Bool) : (s.setFlag c).dirty = s.dirty := rfl
@[simp] theorem State.setFlag_key (s : State) (c : Bool) : (s.setFlag c).key = s.key := rfl
@[simp] theorem State.setFlag_cycleCount (s : State) (c : Bool) : (s.setFlag c).cycleCount = s.cycleCount := rfl
@[simp] theorem State.setFlag_currentInstruction (s : State) (c : Bool) : (s.setFlag c).currentInstruction = s.currentInstruction := rfl
@[simp] theorem State.setFlag_halted (s : State) (c : Bool) : (s.setFlag c).halted = s.halted := rfl
@[simp] theorem State.setFlag_faultCause (s : State) (c : Bool) : (s.setFlag c).faultCause = s.faultCause := rfl
@[simp] theorem State.setFlag_faultInfo (s : State) (c : Bool) : (s.setFlag c).faultInfo = s.faultInfo := rfl
@[simp] theorem State.setFlag_rndInjected (s : State) (c : Bool) : (s.setFlag c).rndInjected = s.rndInjected := rfl
@[simp] theorem State.setFlag_rndDrawn (s : State) (c : Bool) : (s.setFlag c).rndDrawn = s.rndDrawn := rfl

/-! `State.setResultFlag` -/

@[simp] theorem State.setResultFlag_mem (s : State) (x : Reg) (r : Byte) (c : Bool) : (s.setResultFlag x r c).mem = s.mem := rfl
@[simp] theorem State.setResultFlag_v (s : State) (x : Reg) (r : Byte) (c : Bool) : (s.setResultFlag x r c).v = (s.v.set x.val r).set 15 (flagByte c) := rfl
@[simp] theorem State.setResultFlag_I (s : State) (x : Reg) (r : Byte) (c : Bool) : (s.setResultFlag x r c).I = s.I := rfl
@[simp] theorem State.setResultFlag_pc (s : State) (x : Reg) (r : Byte) (c : Bool) : (s.setResultFlag x r c).pc = s.pc := rfl
@[simp] theorem State.setResultFlag_stack (s : State) (x : Reg) (r : Byte) (c : Bool) : (s.setResultFlag x r c).stack = s.stack := rfl
@[simp] theorem State.setResultFlag_sp (s : State) (x : Reg) (r : Byte) (c : Bool) : (s.setResultFlag x r c).sp = s.sp := rfl
@[simp] theorem State.setResultFlag_dt (s : State) (x : Reg) (r : Byte) (c : Bool) : (s.setResultFlag x r c).dt = s.dt := rfl
@[simp] theorem State.setResultFlag_st (s : State) (x : Reg) (r : Byte) (c : Bool) : (s.setResultFlag x r c).st = s.st := rfl
@[simp] theorem State.setResultFlag_fb (s : State) (x : Reg) (r : Byte) (c : Bool) : (s.setResultFlag x r c).fb = s.fb := rfl
@[simp] theorem State.setResultFlag_dirty (s : State) (x : Reg) (r : Byte) (c : Bool) : (s.setResultFlag x r c).dirty = s.dirty := rfl
@[simp] theorem State.setResultFlag_key (s : State) (x : Reg) (r : Byte) (c : Bool) : (s.setResultFlag x r c).key = s.key := rfl
@[simp] theorem State.setResultFlag_cycleCount (s : State) (x : Reg) (r : Byte) (c : Bool) : (s.setResultFlag x r c).cycleCount = s.cycleCount := rfl
@[simp] theorem State.setResultFlag_currentInstruction (s : State) (x : Reg) (r : Byte) (c : Bool) : (s.setResultFlag x r c).currentInstruction = s.currentInstruction := rfl
@[simp] theorem State.setResultFlag_halted (s : State) (x : Reg) (r : Byte) (c : Bool) : (s.setResultFlag x r c).halted = s.halted := rfl
@[simp] theorem State.setResultFlag_faultCause (s : State) (x : Reg) (r : Byte) (c : Bool) : (s.setResultFlag x r c).faultCause = s.faultCause := rfl
@[simp] theorem State.setResultFlag_faultInfo (s : State) (x : Reg) (r : Byte) (c : Bool) : (s.setResultFlag x r c).faultInfo = s.faultInfo := rfl
@[simp] theorem State.setResultFlag_rndInjected (s : State) (x : Reg) (r : Byte) (c : Bool) : (s.setResultFlag x r c).rndInjected = s.rndInjected := rfl
@[simp] theorem State.setResultFlag_rndDrawn (s : State) (x : Reg) (r : Byte) (c : Bool) : (s.setResultFlag x r c).rndDrawn = s.rndDrawn := rfl

/-! `State.pushReturn` -/

@[simp] theorem State.pushReturn_mem (s : State) (w : Word) : (s.pushReturn w).mem = s.mem := rfl
@[simp] theorem State.pushReturn_v (s : State) (w : Word) : (s.pushReturn w).v = s.v := rfl
@[simp] theorem State.pushReturn_I (s : State) (w : Word) : (s.pushReturn w).I = s.I := rfl
@[simp] theorem State.pushReturn_pc (s : State) (w : Word) : (s.pushReturn w).pc = s.pc := rfl
@[simp] theorem State.pushReturn_stack (s : State) (w : Word) : (s.pushReturn w).stack = s.stack.set (s.sp + 1).val w := rfl
@[simp] theorem State.pushReturn_sp (s : State) (w : Word) : (s.pushReturn w).sp = s.sp + 1 := rfl
@[simp] theorem State.pushReturn_dt (s : State) (w : Word) : (s.pushReturn w).dt = s.dt := rfl
@[simp] theorem State.pushReturn_st (s : State) (w : Word) : (s.pushReturn w).st = s.st := rfl
@[simp] theorem State.pushReturn_fb (s : State) (w : Word) : (s.pushReturn w).fb = s.fb := rfl
@[simp] theorem State.pushReturn_dirty (s : State) (w : Word) : (s.pushReturn w).dirty = s.dirty := rfl
@[simp] theorem State.pushReturn_key (s : State) (w : Word) : (s.pushReturn w).key = s.key := rfl
@[simp] theorem State.pushReturn_cycleCount (s : State) (w : Word) : (s.pushReturn w).cycleCount = s.cycleCount := rfl
@[simp] theorem State.pushReturn_currentInstruction (s : State) (w : Word) : (s.pushReturn w).currentInstruction = s.currentInstruction := rfl
@[simp] theorem State.pushReturn_halted (s : State) (w : Word) : (s.pushReturn w).halted = s.halted := rfl
@[simp] theorem State.pushReturn_faultCause (s : State) (w : Word) : (s.pushReturn w).faultCause = s.faultCause := rfl
@[simp] theorem State.pushReturn_faultInfo (s : State) (w : Word) : (s.pushReturn w).faultInfo = s.faultInfo := rfl
@[simp] theorem State.pushReturn_rndInjected (s : State) (w : Word) : (s.pushReturn w).rndInjected = s.rndInjected := rfl
@[simp] theorem State.pushReturn_rndDrawn (s : State) (w : Word) : (s.pushReturn w).rndDrawn = s.rndDrawn := rfl

/-! `State.popReturn` -/

@[simp] theorem State.popReturn_mem (s : State) : s.popReturn.mem = s.mem := rfl
@[simp] theorem State.popReturn_v (s : State) : s.popReturn.v = s.v := rfl
@[simp] theorem State.popReturn_I (s : State) : s.popReturn.I = s.I := rfl
@[simp] theorem State.popReturn_pc (s : State) : s.popReturn.pc = s.stack[s.sp.val] := rfl
@[simp] theorem State.popReturn_stack (s : State) : s.popReturn.stack = s.stack := rfl
@[simp] theorem State.popReturn_sp (s : State) : s.popReturn.sp = s.sp - 1 := rfl
@[simp] theorem State.popReturn_dt (s : State) : s.popReturn.dt = s.dt := rfl
@[simp] theorem State.popReturn_st (s : State) : s.popReturn.st = s.st := rfl
@[simp] theorem State.popReturn_fb (s : State) : s.popReturn.fb = s.fb := rfl
@[simp] theorem State.popReturn_dirty (s : State) : s.popReturn.dirty = s.dirty := rfl
@[simp] theorem State.popReturn_key (s : State) : s.popReturn.key = s.key := rfl
@[simp] theorem State.popReturn_cycleCount (s : State) : s.popReturn.cycleCount = s.cycleCount := rfl
@[simp] theorem State.popReturn_currentInstruction (s : State) : s.popReturn.currentInstruction = s.currentInstruction := rfl
@[simp] theorem State.popReturn_halted (s : State) : s.popReturn.halted = s.halted := rfl
@[simp] theorem State.popReturn_faultCause (s : State) : s.popReturn.faultCause = s.faultCause := rfl
@[simp] theorem State.popReturn_faultInfo (s : State) : s.popReturn.faultInfo = s.faultInfo := rfl
@[simp] theorem State.popReturn_rndInjected (s : State) : s.popReturn.rndInjected = s.rndInjected := rfl
@[simp] theorem State.popReturn_rndDrawn (s : State) : s.popReturn.rndDrawn = s.rndDrawn := rfl

/-! `State.takeRandom` -/

@[simp] theorem State.takeRandom_mem (s : State) : s.takeRandom.mem = s.mem := rfl
@[simp] theorem State.takeRandom_v (s : State) : s.takeRandom.v = s.v := rfl
@[simp] theorem State.takeRandom_I (s : State) : s.takeRandom.I = s.I := rfl
@[simp] theorem State.takeRandom_pc (s : State) : s.takeRandom.pc = s.pc := rfl
@[simp] theorem State.takeRandom_stack (s : State) : s.takeRandom.stack = s.stack := rfl
@[simp] theorem State.takeRandom_sp (s : State) : s.takeRandom.sp = s.sp := rfl
@[simp] theorem State.takeRandom_dt (s : State) : s.takeRandom.dt = s.dt := rfl
@[simp] theorem State.takeRandom_st (s : State) : s.takeRandom.st = s.st := rfl
@[simp] theorem State.takeRandom_fb (s : State) : s.takeRandom.fb = s.fb := rfl
@[simp] theorem State.takeRandom_dirty (s : State) : s.takeRandom.dirty = s.dirty := rfl
@[simp] theorem State.takeRandom_key (s : State) : s.takeRandom.key = s.key := rfl
@[simp] theorem State.takeRandom_cycleCount (s : State) : s.takeRandom.cycleCount = s.cycleCount := rfl
@[simp] theorem State.takeRandom_currentInstruction (s : State) : s.takeRandom.currentInstruction = s.currentInstruction := rfl
@[simp] theorem State.takeRandom_halted (s : State) : s.takeRandom.halted = s.halted := rfl
@[simp] theorem State.takeRandom_faultCause (s : State) : s.takeRandom.faultCause = s.faultCause := rfl
@[simp] theorem State.takeRandom_faultInfo (s : State) : s.takeRandom.faultInfo = s.faultInfo := rfl
@[simp] theorem State.takeRandom_rndInjected (s : State) : s.takeRandom.rndInjected = s.rndInjected.tail := rfl
@[simp] theorem State.takeRandom_rndDrawn (s : State) : s.takeRandom.rndDrawn = s.rndDrawn + 1 := rfl

/-! `State.advance` -/

@[simp] theorem State.advance_mem (s : State) : s.advance.mem = s.mem := rfl
@[simp] theorem State.advance_v (s : State) : s.advance.v = s.v := rfl
@[simp] theorem State.advance_I (s : State) : s.advance.I = s.I := rfl
@[simp] theorem State.advance_pc (s : State) : s.advance.pc = nextPc s.pc := rfl
@[simp] theorem State.advance_stack (s : State) : s.advance.stack = s.stack := rfl
@[simp] theorem State.advance_sp (s : State) : s.advance.sp = s.sp := rfl
@[simp] theorem State.advance_dt (s : State) : s.advance.dt = s.dt := rfl
@[simp] theorem State.advance_st (s : State) : s.advance.st = s.st := rfl
@[simp] theorem State.advance_fb (s : State) : s.advance.fb = s.fb := rfl
@[simp] theorem State.advance_dirty (s : State) : s.advance.dirty = s.dirty := rfl
@[simp] theorem State.advance_key (s : State) : s.advance.key = s.key := rfl
@[simp] theorem State.advance_cycleCount (s : State) : s.advance.cycleCount = s.cycleCount := rfl
@[simp] theorem State.advance_currentInstruction (s : State) : s.advance.currentInstruction = s.currentInstruction := rfl
@[simp] theorem State.advance_halted (s : State) : s.advance.halted = s.halted := rfl
@[simp] theorem State.advance_faultCause (s : State) : s.advance.faultCause = s.faultCause := rfl
@[simp] theorem State.advance_faultInfo (s : State) : s.advance.faultInfo = s.faultInfo := rfl
@[simp] theorem State.advance_rndInjected (s : State) : s.advance.rndInjected = s.rndInjected := rfl
@[simp] theorem State.advance_rndDrawn (s : State) : s.advance.rndDrawn = s.rndDrawn := rfl

/-! `State.skipIf` -/

@[simp] theorem State.skipIf_mem (s : State) (c : Bool) : (s.skipIf c).mem = s.mem := rfl
@[simp] theorem State.skipIf_v (s : State) (c : Bool) : (s.skipIf c).v = s.v := rfl
@[simp] theorem State.skipIf_I (s : State) (c : Bool) : (s.skipIf c).I = s.I := rfl
@[simp] theorem State.skipIf_pc (s : State) (c : Bool) : (s.skipIf c).pc = if c then nextPc s.pc else s.pc := rfl
@[simp] theorem State.skipIf_stack (s : State) (c : Bool) : (s.skipIf c).stack = s.stack := rfl
@[simp] theorem State.skipIf_sp (s : State) (c : Bool) : (s.skipIf c).sp = s.sp := rfl
@[simp] theorem State.skipIf_dt (s : State) (c : Bool) : (s.skipIf c).dt = s.dt := rfl
@[simp] theorem State.skipIf_st (s : State) (c : Bool) : (s.skipIf c).st = s.st := rfl
@[simp] theorem State.skipIf_fb (s : State) (c : Bool) : (s.skipIf c).fb = s.fb := rfl
@[simp] theorem State.skipIf_dirty (s : State) (c : Bool) : (s.skipIf c).dirty = s.dirty := rfl
@[simp] theorem State.skipIf_key (s : State) (c : Bool) : (s.skipIf c).key = s.key := rfl
@[simp] theorem State.skipIf_cycleCount (s : State) (c : Bool) : (s.skipIf c).cycleCount = s.cycleCount := rfl
@[simp] theorem State.skipIf_currentInstruction (s : State) (c : Bool) : (s.skipIf c).currentInstruction = s.currentInstruction := rfl
@[simp] theorem State.skipIf_halted (s : State) (c : Bool) : (s.skipIf c).halted = s.halted := rfl
@[simp] theorem State.skipIf_faultCause (s : State) (c : Bool) : (s.skipIf c).faultCause = s.faultCause := rfl
@[simp] theorem State.skipIf_faultInfo (s : State) (c : Bool) : (s.skipIf c).faultInfo = s.faultInfo := rfl
@[simp] theorem State.skipIf_rndInjected (s : State) (c : Bool) : (s.skipIf c).rndInjected = s.rndInjected := rfl
@[simp] theorem State.skipIf_rndDrawn (s : State) (c : Bool) : (s.skipIf c).rndDrawn = s.rndDrawn := rfl

/-! `State.enterFault` -/

@[simp] theorem State.enterFault_mem (s : State) (c : FaultCause) (info : Word) : (s.enterFault c info).mem = s.mem := rfl
@[simp] theorem State.enterFault_v (s : State) (c : FaultCause) (info : Word) : (s.enterFault c info).v = s.v := rfl
@[simp] theorem State.enterFault_I (s : State) (c : FaultCause) (info : Word) : (s.enterFault c info).I = s.I := rfl
@[simp] theorem State.enterFault_pc (s : State) (c : FaultCause) (info : Word) : (s.enterFault c info).pc = s.pc := rfl
@[simp] theorem State.enterFault_stack (s : State) (c : FaultCause) (info : Word) : (s.enterFault c info).stack = s.stack := rfl
@[simp] theorem State.enterFault_sp (s : State) (c : FaultCause) (info : Word) : (s.enterFault c info).sp = s.sp := rfl
@[simp] theorem State.enterFault_dt (s : State) (c : FaultCause) (info : Word) : (s.enterFault c info).dt = s.dt := rfl
@[simp] theorem State.enterFault_st (s : State) (c : FaultCause) (info : Word) : (s.enterFault c info).st = s.st := rfl
@[simp] theorem State.enterFault_fb (s : State) (c : FaultCause) (info : Word) : (s.enterFault c info).fb = s.fb := rfl
@[simp] theorem State.enterFault_dirty (s : State) (c : FaultCause) (info : Word) : (s.enterFault c info).dirty = s.dirty := rfl
@[simp] theorem State.enterFault_key (s : State) (c : FaultCause) (info : Word) : (s.enterFault c info).key = s.key := rfl
@[simp] theorem State.enterFault_cycleCount (s : State) (c : FaultCause) (info : Word) : (s.enterFault c info).cycleCount = s.cycleCount := rfl
@[simp] theorem State.enterFault_currentInstruction (s : State) (c : FaultCause) (info : Word) : (s.enterFault c info).currentInstruction = s.currentInstruction := rfl
@[simp] theorem State.enterFault_halted (s : State) (c : FaultCause) (info : Word) : (s.enterFault c info).halted = true := rfl
@[simp] theorem State.enterFault_faultCause (s : State) (c : FaultCause) (info : Word) : (s.enterFault c info).faultCause = c := rfl
@[simp] theorem State.enterFault_faultInfo (s : State) (c : FaultCause) (info : Word) : (s.enterFault c info).faultInfo = info := rfl
@[simp] theorem State.enterFault_rndInjected (s : State) (c : FaultCause) (info : Word) : (s.enterFault c info).rndInjected = s.rndInjected := rfl
@[simp] theorem State.enterFault_rndDrawn (s : State) (c : FaultCause) (info : Word) : (s.enterFault c info).rndDrawn = s.rndDrawn := rfl

/-! `State.countCycle` -/

@[simp] theorem State.countCycle_mem (s : State) : s.countCycle.mem = s.mem := rfl
@[simp] theorem State.countCycle_v (s : State) : s.countCycle.v = s.v := rfl
@[simp] theorem State.countCycle_I (s : State) : s.countCycle.I = s.I := rfl
@[simp] theorem State.countCycle_pc (s : State) : s.countCycle.pc = s.pc := rfl
@[simp] theorem State.countCycle_stack (s : State) : s.countCycle.stack = s.stack := rfl
@[simp] theorem State.countCycle_sp (s : State) : s.countCycle.sp = s.sp := rfl
@[simp] theorem State.countCycle_dt (s : State) : s.countCycle.dt = s.dt := rfl
@[simp] theorem State.countCycle_st (s : State) : s.countCycle.st = s.st := rfl
@[simp] theorem State.countCycle_fb (s : State) : s.countCycle.fb = s.fb := rfl
@[simp] theorem State.countCycle_dirty (s : State) : s.countCycle.dirty = s.dirty := rfl
@[simp] theorem State.countCycle_key (s : State) : s.countCycle.key = s.key := rfl
@[simp] theorem State.countCycle_cycleCount (s : State) : s.countCycle.cycleCount = s.cycleCount + 1 := rfl
@[simp] theorem State.countCycle_currentInstruction (s : State) : s.countCycle.currentInstruction = s.currentInstruction := rfl
@[simp] theorem State.countCycle_halted (s : State) : s.countCycle.halted = s.halted := rfl
@[simp] theorem State.countCycle_faultCause (s : State) : s.countCycle.faultCause = s.faultCause := rfl
@[simp] theorem State.countCycle_faultInfo (s : State) : s.countCycle.faultInfo = s.faultInfo := rfl
@[simp] theorem State.countCycle_rndInjected (s : State) : s.countCycle.rndInjected = s.rndInjected := rfl
@[simp] theorem State.countCycle_rndDrawn (s : State) : s.countCycle.rndDrawn = s.rndDrawn := rfl

/-! `State.runTimers` -/

@[simp] theorem State.runTimers_mem (s : State) : s.runTimers.mem = s.mem := rfl
@[simp] theorem State.runTimers_v (s : State) : s.runTimers.v = s.v := rfl
@[simp] theorem State.runTimers_I (s : State) : s.runTimers.I = s.I := rfl
@[simp] theorem State.runTimers_pc (s : State) : s.runTimers.pc = s.pc := rfl
@[simp] theorem State.runTimers_stack (s : State) : s.runTimers.stack = s.stack := rfl
@[simp] theorem State.runTimers_sp (s : State) : s.runTimers.sp = s.sp := rfl
@[simp] theorem State.runTimers_dt (s : State) : s.runTimers.dt = if timersDue s.cycleCount then countDown s.dt else s.dt := rfl
@[simp] theorem State.runTimers_st (s : State) : s.runTimers.st = if timersDue s.cycleCount then countDown s.st else s.st := rfl
@[simp] theorem State.runTimers_fb (s : State) : s.runTimers.fb = s.fb := rfl
@[simp] theorem State.runTimers_dirty (s : State) : s.runTimers.dirty = s.dirty := rfl
@[simp] theorem State.runTimers_key (s : State) : s.runTimers.key = s.key := rfl
@[simp] theorem State.runTimers_cycleCount (s : State) : s.runTimers.cycleCount = s.cycleCount := rfl
@[simp] theorem State.runTimers_currentInstruction (s : State) : s.runTimers.currentInstruction = s.currentInstruction := rfl
@[simp] theorem State.runTimers_halted (s : State) : s.runTimers.halted = s.halted := rfl
@[simp] theorem State.runTimers_faultCause (s : State) : s.runTimers.faultCause = s.faultCause := rfl
@[simp] theorem State.runTimers_faultInfo (s : State) : s.runTimers.faultInfo = s.faultInfo := rfl
@[simp] theorem State.runTimers_rndInjected (s : State) : s.runTimers.rndInjected = s.rndInjected := rfl
@[simp] theorem State.runTimers_rndDrawn (s : State) : s.runTimers.rndDrawn = s.rndDrawn := rfl

/-! `State.latch` -/

@[simp] theorem State.latch_mem (s : State) (w : Word) : (s.latch w).mem = s.mem := rfl
@[simp] theorem State.latch_v (s : State) (w : Word) : (s.latch w).v = s.v := rfl
@[simp] theorem State.latch_I (s : State) (w : Word) : (s.latch w).I = s.I := rfl
@[simp] theorem State.latch_pc (s : State) (w : Word) : (s.latch w).pc = s.pc := rfl
@[simp] theorem State.latch_stack (s : State) (w : Word) : (s.latch w).stack = s.stack := rfl
@[simp] theorem State.latch_sp (s : State) (w : Word) : (s.latch w).sp = s.sp := rfl
@[simp] theorem State.latch_dt (s : State) (w : Word) : (s.latch w).dt = s.dt := rfl
@[simp] theorem State.latch_st (s : State) (w : Word) : (s.latch w).st = s.st := rfl
@[simp] theorem State.latch_fb (s : State) (w : Word) : (s.latch w).fb = s.fb := rfl
@[simp] theorem State.latch_dirty (s : State) (w : Word) : (s.latch w).dirty = s.dirty := rfl
@[simp] theorem State.latch_key (s : State) (w : Word) : (s.latch w).key = s.key := rfl
@[simp] theorem State.latch_cycleCount (s : State) (w : Word) : (s.latch w).cycleCount = s.cycleCount := rfl
@[simp] theorem State.latch_currentInstruction (s : State) (w : Word) : (s.latch w).currentInstruction = w := rfl
@[simp] theorem State.latch_halted (s : State) (w : Word) : (s.latch w).halted = s.halted := rfl
@[simp] theorem State.latch_faultCause (s : State) (w : Word) : (s.latch w).faultCause = s.faultCause := rfl
@[simp] theorem State.latch_faultInfo (s : State) (w : Word) : (s.latch w).faultInfo = s.faultInfo := rfl
@[simp] theorem State.latch_rndInjected (s : State) (w : Word) : (s.latch w).rndInjected = s.rndInjected := rfl
@[simp] theorem State.latch_rndDrawn (s : State) (w : Word) : (s.latch w).rndDrawn = s.rndDrawn := rfl

/-! Reading one register -/

@[simp] theorem State.reg_setReg_same (s : State) (x : Reg) (b : Byte) : (s.setReg x b).reg x = b := by
  simp [State.reg, State.setReg]

theorem State.reg_setReg_ne (s : State) (x y : Reg) (b : Byte) (h : y ≠ x) : (s.setReg x b).reg y = s.reg y := by
  have hv : x.val ≠ y.val := fun e => h (Fin.ext e.symm)
  simp [State.reg, State.setReg, hv]

theorem State.reg_setReg (s : State) (x y : Reg) (b : Byte) :
    (s.setReg x b).reg y = if y = x then b else s.reg y := by
  split
  · next h => subst h; exact State.reg_setReg_same s _ b
  · next h => exact State.reg_setReg_ne s x y b h

@[simp] theorem State.reg_setFlag_flag (s : State) (c : Bool) : (s.setFlag c).reg 15 = flagByte c :=
  State.reg_setReg_same s _ _

theorem State.reg_setFlag_ne (s : State) (c : Bool) (y : Reg) (h : y ≠ 15) : (s.setFlag c).reg y = s.reg y :=
  State.reg_setReg_ne s _ _ _ h

theorem State.reg_setFlag (s : State) (c : Bool) (y : Reg) :
    (s.setFlag c).reg y = if y = 15 then flagByte c else s.reg y := State.reg_setReg s _ _ _

@[simp] theorem State.reg_setResultFlag_flag (s : State) (x : Reg) (r : Byte) (c : Bool) :
    (s.setResultFlag x r c).reg 15 = flagByte c := State.reg_setFlag_flag _ c

theorem State.reg_setResultFlag (s : State) (x : Reg) (r : Byte) (c : Bool) (y : Reg) :
    (s.setResultFlag x r c).reg y = if y = 15 then flagByte c else if y = x then r else s.reg y := by
  rw [State.setResultFlag, State.reg_setFlag, State.reg_setReg]

@[simp] theorem State.setI_reg (s : State) (w : IndexWord) (y : Reg) : (s.setI w).reg y = s.reg y := rfl
@[simp] theorem State.setPc_reg (s : State) (w : PcWord) (y : Reg) : (s.setPc w).reg y = s.reg y := rfl
@[simp] theorem State.setMem_reg (s : State) (m : Memory) (y : Reg) : (s.setMem m).reg y = s.reg y := rfl
@[simp] theorem State.setDt_reg (s : State) (b : Byte) (y : Reg) : (s.setDt b).reg y = s.reg y := rfl
@[simp] theorem State.setSt_reg (s : State) (b : Byte) (y : Reg) : (s.setSt b).reg y = s.reg y := rfl
@[simp] theorem State.setPicture_reg (s : State) (f : Framebuffer) (y : Reg) : (s.setPicture f).reg y = s.reg y := rfl
@[simp] theorem State.pushReturn_reg (s : State) (w : Word) (y : Reg) : (s.pushReturn w).reg y = s.reg y := rfl
@[simp] theorem State.popReturn_reg (s : State) (y : Reg) : s.popReturn.reg y = s.reg y := rfl
@[simp] theorem State.takeRandom_reg (s : State) (y : Reg) : s.takeRandom.reg y = s.reg y := rfl
@[simp] theorem State.advance_reg (s : State) (y : Reg) : s.advance.reg y = s.reg y := rfl
@[simp] theorem State.skipIf_reg (s : State) (c : Bool) (y : Reg) : (s.skipIf c).reg y = s.reg y := rfl
@[simp] theorem State.enterFault_reg (s : State) (c : FaultCause) (info : Word) (y : Reg) : (s.enterFault c info).reg y = s.reg y := rfl
@[simp] theorem State.countCycle_reg (s : State) (y : Reg) : s.countCycle.reg y = s.reg y := rfl
@[simp] theorem State.runTimers_reg (s : State) (y : Reg) : s.runTimers.reg y = s.reg y := rfl
@[simp] theorem State.latch_reg (s : State) (w : Word) (y : Reg) : (s.latch w).reg y = s.reg y := rfl

/-- Two register files are equal when every register reads the same. -/
theorem State.regs_ext {v w : Vector Byte 16} (h : ∀ y : Reg, v[y.val] = w[y.val]) : v = w :=
  Vector.ext fun i hi => h ⟨i, hi⟩

end Sys2Proof.Machine
end

