-- ==== Sys2Proof/Laws/Ops.lean ====
section
/-! SUPPORT. One lemma for each shared operation that says once everything it can do: how an instruction ends, the
bounds check, a tick, the sprite drawing, the register list. Proofs cite these instead of unfolding. -/

namespace Sys2Proof.Machine

/-! ### Numbers in bit-vector operations -/

@[simp] theorem nextPc_eq (w : PcWord) : nextPc w = w + 2#16 := rfl

theorem toNat_pcOfAddr (a : Addr12) : (pcOfAddr a).toNat = a.toNat :=
  (BitVec.toNat_setWidth _ _).trans (Nat.mod_eq_of_lt (Nat.lt_trans a.isLt (by decide)))

theorem toNat_indexOfAddr (a : Addr12) : (indexOfAddr a).toNat = a.toNat :=
  (BitVec.toNat_setWidth _ _).trans (Nat.mod_eq_of_lt (Nat.lt_trans a.isLt (by decide)))

theorem toNat_pcOfByte (b : Byte) : (pcOfByte b).toNat = b.toNat :=
  (BitVec.toNat_setWidth _ _).trans (Nat.mod_eq_of_lt (Nat.lt_trans (byte_lt b) (by decide)))

theorem toNat_indexOfByte (b : Byte) : (indexOfByte b).toNat = b.toNat :=
  (BitVec.toNat_setWidth _ _).trans (Nat.mod_eq_of_lt (Nat.lt_trans (byte_lt b) (by decide)))

theorem toNat_infoOfByte (b : Byte) : (infoOfByte b).toNat = b.toNat :=
  (BitVec.toNat_setWidth _ _).trans (Nat.mod_eq_of_lt (Nat.lt_trans (byte_lt b) (by decide)))

theorem toNat_countDown (b : Byte) : (countDown b).toNat = b.toNat - 1 := by
  unfold countDown
  split
  · next h => subst h; rfl
  · next h =>
    have hb : b.toNat ≠ 0 := fun e => h (BitVec.eq_of_toNat_eq (by simpa using e))
    have := byte_lt b
    rw [BitVec.toNat_sub, show (1 : Byte).toNat = 1 from rfl, show 2 ^ Config.regBits = 256 from rfl]
    omega

theorem timersDue_iff (c : Nat) : timersDue c = true ↔ c % 9 = 0 := by simp [timersDue, Config.timerPeriod]

theorem toNat_flagByte (c : Bool) : (flagByte c).toNat = c.toNat := by cases c <;> rfl

/-! ### How an instruction ends -/

theorem completes_eq (s : State) : completes s = .next s.advance := rfl

theorem redirects_eq (s : State) : redirects s = .next s := rfl

theorem raises_eq (c : FaultCause) (info : Word) (s : State) : raises c info s = .next (s.enterFault c info) := rfl

/-- In range, the bounds check lets the instruction go on. -/
theorem withRange_inRange {base len : Nat} (s : State) (k : Host.Outcome State Fault Refusal)
    (h : len = 0 ∨ base + len ≤ 4096) : withRange base len s k = k := by
  rw [withRange, outOfRange_eq_none.2 h]

/-- Out of range, it takes the fault with the lowest bad address (R67). -/
theorem withRange_outOfRange {base len : Nat} (s : State) (k : Host.Outcome State Fault Refusal)
    (h0 : len ≠ 0) (h : 4096 < base + len) :
    withRange base len s k = .next (s.enterFault .memoryOutOfRange (addressInfo (max base 4096))) := by
  rw [withRange, outOfRange_eq_some.2 ⟨h0, h, rfl⟩]
  rfl

/-- The two ways through a bounds check. -/
theorem withRange_cases {base len : Nat} {s t : State} {k : Host.Outcome State Fault Refusal}
    (h : withRange base len s k = .next t) :
    ((len = 0 ∨ base + len ≤ 4096) ∧ k = .next t) ∨
    (len ≠ 0 ∧ 4096 < base + len ∧ t = s.enterFault .memoryOutOfRange (addressInfo (max base 4096))) := by
  by_cases hr : len = 0 ∨ base + len ≤ 4096
  · rw [withRange_inRange s k hr] at h
    exact .inl ⟨hr, h⟩
  · rw [not_or] at hr
    rw [withRange_outOfRange s k hr.1 (by omega)] at h
    injection h with h
    exact .inr ⟨hr.1, by omega, h.symm⟩

/-! ### The tick (R127) -/

theorem step_eq (s : State) : step s = tick s := rfl

theorem tick_halted {s : State} (h : s.halted = true) : tick s = .next s := by rw [tick, if_pos h]

theorem tick_outOfRange {s : State} (h : s.halted = false) (hp : 4096 ≤ s.pc.toNat + 1) :
    tick s = .next (s.beginTick.enterFault .memoryOutOfRange (addressInfo (max s.pc.toNat 4096))) := by
  have hp' : 4096 < s.beginTick.pc.toNat + Config.instrBytes := by
    simp [State.beginTick, Config.instrBytes]; omega
  rw [tick, h, if_neg Bool.false_ne_true, fetchAndRun, withRange_outOfRange _ _ (by decide) hp']
  rfl

theorem tick_runs {s : State} (h : s.halted = false) (hp : s.pc.toNat + 1 < 4096) :
    tick s = runWord s.wordAtPc (s.beginTick.latch s.wordAtPc) := by
  have hp' : s.beginTick.pc.toNat + Config.instrBytes ≤ 4096 := by
    simp [State.beginTick, Config.instrBytes]; omega
  rw [tick, h, if_neg Bool.false_ne_true, fetchAndRun, withRange_inRange _ _ (.inr hp')]
  rfl

theorem runWord_instr {w : Word} {i : Instr} (h : decodeWord w = some i) (s : State) : runWord w s = exec i s := by
  rw [runWord, h]

theorem runWord_unknown {w : Word} (h : decodeWord w = none) (s : State) :
    runWord w s = .next (s.enterFault .unknownOpcode w) := by
  rw [runWord, h]
  rfl

/-- Everything a tick can do, for one that answers a next state. -/
theorem tick_cases {s t : State} (h : tick s = .next t) :
    (s.halted = true ∧ t = s) ∨
    (s.halted = false ∧ 4096 ≤ s.pc.toNat + 1 ∧
      t = s.beginTick.enterFault .memoryOutOfRange (addressInfo (max s.pc.toNat 4096))) ∨
    (s.halted = false ∧ s.pc.toNat + 1 < 4096 ∧ decodeWord s.wordAtPc = none ∧
      t = (s.beginTick.latch s.wordAtPc).enterFault .unknownOpcode s.wordAtPc) ∨
    (s.halted = false ∧ s.pc.toNat + 1 < 4096 ∧
      ∃ i, decodeWord s.wordAtPc = some i ∧ exec i (s.beginTick.latch s.wordAtPc) = .next t) := by
  cases hh : s.halted with
  | true =>
    rw [tick_halted hh] at h
    injection h with h
    exact .inl ⟨rfl, h.symm⟩
  | false =>
    refine .inr ?_
    by_cases hp : s.pc.toNat + 1 < 4096
    · rw [tick_runs hh hp] at h
      cases hd : decodeWord s.wordAtPc with
      | none =>
        rw [runWord_unknown hd] at h
        injection h with h
        exact .inr (.inl ⟨rfl, hp, rfl, h.symm⟩)
      | some i =>
        rw [runWord_instr hd] at h
        exact .inr (.inr ⟨rfl, hp, i, rfl, h⟩)
    · rw [tick_outOfRange hh (by omega)] at h
      injection h with h
      exact .inl ⟨rfl, by omega, h.symm⟩

theorem toNat_wordAtPc (s : State) :
    s.wordAtPc.toNat = 256 * (s.mem.read s.pc.toNat).toNat + (s.mem.read (s.pc.toNat + 1)).toNat :=
  toNat_wordOfBytes _ _

/-- The state in which the execute phase begins, field by field. -/
theorem beginTick_eq (s : State) :
    s.beginTick = { s with
      cycleCount := s.cycleCount + 1
      dt := if (s.cycleCount + 1) % 9 = 0 then BitVec.ofNat 8 (s.dt.toNat - 1) else s.dt
      st := if (s.cycleCount + 1) % 9 = 0 then BitVec.ofNat 8 (s.st.toNat - 1) else s.st } := by
  have hc : ∀ b : Byte, countDown b = BitVec.ofNat 8 (b.toNat - 1) := fun b => by
    apply BitVec.eq_of_toNat_eq
    rw [toNat_countDown, BitVec.toNat_ofNat, show 2 ^ Config.regBits = 256 from rfl]
    have := byte_lt b
    omega
  simp only [State.beginTick, State.runTimers, State.countCycle, timersDue_iff, hc]

/-! ### The stack pointer (R26) -/

theorem val_sp_succ {k : Fin Config.stackSlots} (h : k.val ≠ 15) : (k + 1).val = k.val + 1 := by
  have := slot_lt k
  show (k.val + 1) % 16 = k.val + 1
  omega

/-! ### The register list of dump and load (R194, R195) -/

@[simp] theorem length_regsUpTo (s : State) (x : Reg) : (s.regsUpTo x).length = x.val + 1 := by
  have := x.isLt
  simp only [State.regsUpTo, List.length_take, Vector.length_toList]
  omega

theorem getElem_regsUpTo (s : State) (x k : Reg) (h : k.val < (s.regsUpTo x).length) :
    (s.regsUpTo x)[k.val] = s.reg k := by
  simp [State.regsUpTo, State.reg]

theorem getElem_loadRegs (m : Memory) (base : Nat) (v : Vector Byte Config.numRegs) (k : Nat) (hk : k < 16) :
    ∀ n, (loadRegs m base v n)[k] = if k < n then m.read (base + k) else v[k]
  | 0 => by simp [loadRegs]
  | n + 1 => by
    rw [loadRegs, Vector.getElem_setIfInBounds, getElem_loadRegs m base v k hk n]
    by_cases h : n = k
    · subst h; simp
    · have : (k < n + 1) = (k < n) := by simp; omega
      simp [h, this]

/-! ### Pixels and sprites (R211) -/

theorem pixel_of_lt (fb : Framebuffer) {row col : Nat} (h : row < 32) : fb.pixel row col = fb[row].getMsbD col := by
  rw [Framebuffer.pixel, dif_pos h]

/-- Inverting a pixel of the grid inverts that pixel and no other. -/
theorem pixel_flip (fb : Framebuffer) {r c row col : Nat} (hr : r < 32) (hc : c < 64) (hrow : row < 32)
    (hcol : col < 64) :
    (fb.flip r c).pixel row col = (fb.pixel row col != decide (row = r ∧ col = c)) := by
  rw [pixel_of_lt _ hrow, pixel_of_lt _ hrow, Framebuffer.flip, dif_pos hr, Vector.getElem_set]
  split
  · next h =>
    subst h
    simp only [BitVec.getMsbD_xor, BitVec.getMsbD_shiftLeft, BitVec.getMsbD_one, bne, true_and]
    congr 1
    by_cases h : col = c
    · subst h; simp [show col + (63 - col) = 63 by omega]
    · have : ¬(col + (63 - c) = 63) := by omega
      simp [h, this]
  · next h =>
    have : ¬(row = r ∧ col = c) := fun e => h e.1.symm
    simp [this]

/-- Two framebuffers are equal when every pixel of the grid is. -/
theorem framebuffer_ext {f g : Framebuffer} (h : ∀ row col, row < 32 → col < 64 → f.pixel row col = g.pixel row col) :
    f = g := by
  apply Vector.ext
  intro row hrow
  apply BitVec.eq_of_getMsbD_eq
  intro col hcol
  have := h row col hrow hcol
  rwa [pixel_of_lt _ hrow, pixel_of_lt _ hrow] at this

theorem pixel_plot (r c : Nat) (p : Canvas) {row col : Nat} (hrow : row < 32) (hcol : col < 64) :
    (plot r c p).1.pixel row col = (p.1.pixel row col != decide (row = r ∧ col = c)) := by
  unfold plot
  split
  · next h => exact pixel_flip p.1 h.1 h.2 hrow hcol
  · next h =>
    have : ¬(row = r ∧ col = c) := by
      rintro ⟨rfl, rfl⟩
      exact h ⟨hrow, hcol⟩
    simp [this]

theorem hit_plot (r c : Nat) (p : Canvas) :
    (plot r c p).2 = (p.2 || (decide (r < 32 ∧ c < 64) && p.1.pixel r c)) := by
  unfold plot
  split
  · next h =>
    have h' : r < 32 ∧ c < 64 := h
    simp [h'.1, h'.2]
  · next h =>
    have h' : ¬(r < 32 ∧ c < 64) := h
    simp [h']

end Sys2Proof.Machine
end

