-- ==== Sys2Proof/Laws/Display.lean ====
section
/-! SUPPORT. What the sprite loops of spec/44_display.md R211 do, pixel by pixel: after any number of columns of a row,
after a row, after all rows. Distinct (row, column) pairs of a sprite meet distinct pixels, so the order of the loops
shows nowhere. -/

namespace Sys2Proof.Machine

theorem bne_bne_bool (a b c : Bool) : ((a != b) != c) = (a != (b != c)) := by cases a <;> cases b <;> cases c <;> rfl

/-- Is (col, row) a 1 bit among the first `n` columns of the sprite row `b` at row `r`, column `x0`? -/
def rowLit (x0 r : Nat) (b : Byte) (n row col : Nat) : Bool :=
  decide (row = r ∧ x0 ≤ col ∧ col < x0 + n) && b.getLsbD (7 - (col - x0))

/-- The first `n` columns of a sprite row. -/
def drawColumns (x0 r : Nat) (b : Byte) (n : Nat) (p : Canvas) : Canvas :=
  (List.range n).foldl (fun acc k => if spritePixel b k then plot r (x0 + k) acc else acc) p

theorem drawColumns_zero (x0 r : Nat) (b : Byte) (p : Canvas) : drawColumns x0 r b 0 p = p := rfl

theorem drawColumns_succ (x0 r : Nat) (b : Byte) (n : Nat) (p : Canvas) :
    drawColumns x0 r b (n + 1) p =
      if spritePixel b n then plot r (x0 + n) (drawColumns x0 r b n p) else drawColumns x0 r b n p := by
  simp [drawColumns, List.range_succ]

theorem drawRow_eq (x0 r : Nat) (b : Byte) (p : Canvas) : drawRow x0 r b p = drawColumns x0 r b 8 p := rfl

theorem rowLit_succ (x0 r : Nat) (b : Byte) (n row col : Nat) :
    rowLit x0 r b (n + 1) row col =
      (rowLit x0 r b n row col != (decide (row = r ∧ col = x0 + n) && spritePixel b n)) := by
  by_cases hc : col = x0 + n
  · subst hc
    have h1 : ¬(x0 + n < x0 + n) := by omega
    simp [rowLit, spritePixel, Config.spriteWidth]
  · have h1 : (x0 ≤ col ∧ col < x0 + (n + 1)) ↔ (x0 ≤ col ∧ col < x0 + n) := by omega
    simp [rowLit, hc, h1]

theorem pixel_drawColumns (x0 r : Nat) (b : Byte) (p : Canvas) {row col : Nat} (hrow : row < 32) (hcol : col < 64) :
    ∀ n, (drawColumns x0 r b n p).1.pixel row col = (p.1.pixel row col != rowLit x0 r b n row col)
  | 0 => by
    have : rowLit x0 r b 0 row col = false := by
      rw [rowLit, decide_eq_false (by omega), Bool.false_and]
    simp [drawColumns_zero, this]
  | n + 1 => by
    rw [drawColumns_succ, rowLit_succ]
    have ih := pixel_drawColumns x0 r b p hrow hcol n
    cases hb : spritePixel b n with
    | true => simp only [if_true, pixel_plot _ _ _ hrow hcol, ih, Bool.and_true, bne_bne_bool]
    | false => simp [ih]

theorem hit_drawColumns (x0 r : Nat) (b : Byte) (p : Canvas) :
    ∀ n, (drawColumns x0 r b n p).2 = true ↔
      p.2 = true ∨ ∃ col, r < 32 ∧ col < 64 ∧ p.1.pixel r col = true ∧ rowLit x0 r b n r col = true
  | 0 => by
    have h : ∀ col, rowLit x0 r b 0 r col = false := fun col => by
      rw [rowLit, decide_eq_false (by omega), Bool.false_and]
    simp [drawColumns_zero, h]
  | n + 1 => by
    rw [drawColumns_succ]
    have ih := hit_drawColumns x0 r b p n
    have hlit : ∀ col, rowLit x0 r b (n + 1) r col = true ↔
        rowLit x0 r b n r col = true ∨ (col = x0 + n ∧ spritePixel b n = true) := fun col => by
      rw [rowLit_succ]
      by_cases hc : col = x0 + n
      · subst hc
        have : rowLit x0 r b n r (x0 + n) = false := by simp [rowLit]
        simp [this]
      · simp [hc]
    cases hb : spritePixel b n with
    | false => simp [ih, hlit, hb]
    | true =>
      have hnew : ∀ h : r < 32 ∧ x0 + n < 64, (drawColumns x0 r b n p).1.pixel r (x0 + n) = p.1.pixel r (x0 + n) :=
        fun h => by
          rw [pixel_drawColumns x0 r b p h.1 h.2]
          have : rowLit x0 r b n r (x0 + n) = false := by simp [rowLit]
          simp [this]
      simp only [if_true, hit_plot, Bool.or_eq_true, ih, Bool.and_eq_true, decide_eq_true_eq, hlit, hb, and_true]
      constructor
      · rintro ((h | ⟨col, h1, h2, h3, h4⟩) | ⟨h, h3⟩)
        · exact .inl h
        · exact .inr ⟨col, h1, h2, h3, .inl h4⟩
        · exact .inr ⟨x0 + n, h.1, h.2, hnew h ▸ h3, .inr rfl⟩
      · rintro (h | ⟨col, h1, h2, h3, h4 | rfl⟩)
        · exact .inl (.inl h)
        · exact .inl (.inr ⟨col, h1, h2, h3, h4⟩)
        · exact .inr ⟨⟨h1, h2⟩, (hnew ⟨h1, h2⟩).symm ▸ h3⟩

/-- Is (col, row) a 1 bit of the sprite rows `bs` placed downward from row `y0`? -/
def rowsLit (x0 y0 : Nat) (bs : List Byte) (row col : Nat) : Bool :=
  decide (y0 ≤ row ∧ row < y0 + bs.length ∧ x0 ≤ col ∧ col < x0 + 8) &&
    ((bs[row - y0]?).getD 0).getLsbD (7 - (col - x0))

theorem rowsLit_cons (x0 y0 : Nat) (b : Byte) (bs : List Byte) (row col : Nat) :
    rowsLit x0 y0 (b :: bs) row col = (rowLit x0 y0 b 8 row col != rowsLit x0 (y0 + 1) bs row col) := by
  rcases Nat.lt_trichotomy row y0 with h | h | h
  · have h1 : ¬(y0 ≤ row) := by omega
    have h2 : ¬(y0 + 1 ≤ row) := by omega
    have h3 : row ≠ y0 := by omega
    simp [rowsLit, rowLit, h1, h2, h3]
  · subst h
    have h2 : ¬(row + 1 ≤ row) := by omega
    simp [rowsLit, rowLit, h2]
  · have h1 : y0 ≤ row := by omega
    have h2 : y0 + 1 ≤ row := by omega
    have h3 : row ≠ y0 := by omega
    have h4 : row - y0 = (row - (y0 + 1)) + 1 := by omega
    have h5 : row < y0 + (bs.length + 1) ↔ row < y0 + 1 + bs.length := by omega
    simp [rowsLit, rowLit, h1, h2, h3, h4, h5]

theorem pixel_drawRows (x0 : Nat) {row col : Nat} (hrow : row < 32) (hcol : col < 64) :
    ∀ (bs : List Byte) (y0 : Nat) (p : Canvas),
      (drawRows x0 y0 bs p).1.pixel row col = (p.1.pixel row col != rowsLit x0 y0 bs row col)
  | [], y0, p => by
    have : rowsLit x0 y0 [] row col = false := by simp [rowsLit]
    simp [drawRows, this]
  | b :: bs, y0, p => by
    rw [drawRows, pixel_drawRows x0 hrow hcol bs, drawRow_eq, pixel_drawColumns x0 y0 b p hrow hcol, rowsLit_cons,
      bne_bne_bool]

theorem hit_drawRows (x0 : Nat) :
    ∀ (bs : List Byte) (y0 : Nat) (p : Canvas),
      (drawRows x0 y0 bs p).2 = true ↔
        p.2 = true ∨ ∃ row col, row < 32 ∧ col < 64 ∧ p.1.pixel row col = true ∧ rowsLit x0 y0 bs row col = true
  | [], y0, p => by
    have h : ∀ row col, rowsLit x0 y0 [] row col = false := fun row col => by simp [rowsLit]
    simp [drawRows, h]
  | b :: bs, y0, p => by
    rw [drawRows, hit_drawRows x0 bs, drawRow_eq, hit_drawColumns]
    have hfirst : ∀ row col, rowLit x0 y0 b 8 row col = true → row = y0 := fun row col h => by
      simp [rowLit] at h; exact h.1.1
    have hrest : ∀ row col, rowsLit x0 (y0 + 1) bs row col = true → row ≠ y0 := fun row col h => by
      simp [rowsLit] at h; omega
    constructor
    · rintro ((h | ⟨col, h1, h2, h3, h4⟩) | ⟨row, col, h1, h2, h3, h4⟩)
      · exact .inl h
      · refine .inr ⟨y0, col, h1, h2, h3, ?_⟩
        rw [rowsLit_cons, h4]
        cases h5 : rowsLit x0 (y0 + 1) bs y0 col with
        | false => rfl
        | true => exact absurd rfl (hrest _ _ h5)
      · refine .inr ⟨row, col, h1, h2, ?_, ?_⟩
        · rw [pixel_drawColumns x0 y0 b p h1 h2] at h3
          cases h5 : rowLit x0 y0 b 8 row col with
          | false => rw [h5] at h3; simpa using h3
          | true => exact absurd (hfirst _ _ h5) (hrest _ _ h4)
        · rw [rowsLit_cons, h4]
          cases h5 : rowLit x0 y0 b 8 row col with
          | false => rfl
          | true => exact absurd (hfirst _ _ h5) (hrest _ _ h4)
    · rintro (h | ⟨row, col, h1, h2, h3, h4⟩)
      · exact .inl (.inl h)
      · rw [rowsLit_cons] at h4
        cases h5 : rowLit x0 y0 b 8 row col with
        | true =>
          have := hfirst _ _ h5
          subst this
          exact .inl (.inr ⟨col, h1, h2, h3, h5⟩)
        | false =>
          rw [h5] at h4
          refine .inr ⟨row, col, h1, h2, ?_, by simpa using h4⟩
          rw [pixel_drawColumns x0 y0 b p h1 h2, h5, h3]
          rfl

/-- The bytes a sprite is read from, as the statements' `spriteLit` sees them. -/
theorem rowsLit_readBytes (x y : Reg) (n : Nat) (s : State) (row col : Nat) :
    rowsLit (originX (s.reg x)) (originY (s.reg y)) (s.mem.readBytes (s.effAddr 0) n) row col =
      spriteLit x y n s row col := by
  have hx : originX (s.reg x) = (s.reg x).toNat % 64 := rfl
  have hy : originY (s.reg y) = (s.reg y).toNat % 32 := rfl
  rw [rowsLit, spriteLit, Memory.length_readBytes, hx, hy]
  by_cases h : (s.reg y).toNat % 32 ≤ row ∧ row < (s.reg y).toNat % 32 + n
  · rw [Memory.getElem?_readBytes _ _ _ _ (by omega)]
    simp [State.effAddr]
  · have h' : ¬((s.reg y).toNat % 32 ≤ row ∧ row < (s.reg y).toNat % 32 + n ∧
        (s.reg x).toNat % 64 ≤ col ∧ col < (s.reg x).toNat % 64 + 8) := fun e => h ⟨e.1, e.2.1⟩
    simp only [h', decide_false, Bool.false_and]

/-- The canvas a sprite leaves: each pixel of the grid inverted where the sprite is lit. -/
theorem pixel_spriteCanvas (x y : Reg) (n : Nat) (s : State) {row col : Nat} (hrow : row < 32) (hcol : col < 64) :
    (spriteCanvas x y n s).1.pixel row col = (s.fb.pixel row col != spriteLit x y n s row col) := by
  rw [spriteCanvas, pixel_drawRows _ hrow hcol, rowsLit_readBytes]

/-- A sprite collides when it is lit on a pixel of the grid that was 1. -/
theorem hit_spriteCanvas (x y : Reg) (n : Nat) (s : State) :
    (spriteCanvas x y n s).2 = true ↔
      ∃ row col, row < 32 ∧ col < 64 ∧ s.fb.pixel row col = true ∧ spriteLit x y n s row col = true := by
  rw [spriteCanvas, hit_drawRows]
  simp only [rowsLit_readBytes, Bool.false_eq_true, false_or]

end Sys2Proof.Machine
end

