-- ==== Sys2Proof/Laws/Exec.lean ====
section
/-! SUPPORT. The ways through each meaning that has more than one, each under the condition that chooses it. The other
meanings have one way through and are equal to `completes` or `redirects` of one state by definition. -/

namespace Sys2Proof.Machine

theorem execRet_empty {s : State} (h : s.sp.val = 0) : execRet s = .next (s.enterFault .stackUnderflow s.pc) := if_pos h

theorem execRet_pops {s : State} (h : s.sp.val ≠ 0) : execRet s = .next s.popReturn.advance := if_neg h

theorem execCall_full {s : State} (h : s.sp.val = 15) (nnn : Addr12) :
    execCall nnn s = .next (s.enterFault .stackOverflow s.pc) := if_pos h

theorem execCall_pushes {s : State} (h : s.sp.val ≠ 15) (nnn : Addr12) :
    execCall nnn s = .next ((s.pushReturn s.pc).setPc (pcOfAddr nnn)) := if_neg h

theorem keyIndexBad_iff (b : Byte) : keyIndexBad b = true ↔ 15 < b.toNat := by
  simp only [keyIndexBad, Config.numKeys, decide_eq_true_eq]
  omega

theorem execSkp_bad {s : State} {x : Reg} (h : 15 < (s.reg x).toNat) :
    execSkp x s = .next (s.enterFault .keyIndexOutOfRange (infoOfByte (s.reg x))) := if_pos ((keyIndexBad_iff _).2 h)

theorem execSkp_key {s : State} {x : Reg} (h : (s.reg x).toNat ≤ 15) :
    execSkp x s = .next (s.skipIf (keyDown s.key (s.reg x).toNat)).advance :=
  if_neg fun e => absurd ((keyIndexBad_iff _).1 e) (by omega)

theorem execSknp_bad {s : State} {x : Reg} (h : 15 < (s.reg x).toNat) :
    execSknp x s = .next (s.enterFault .keyIndexOutOfRange (infoOfByte (s.reg x))) := if_pos ((keyIndexBad_iff _).2 h)

theorem execSknp_key {s : State} {x : Reg} (h : (s.reg x).toNat ≤ 15) :
    execSknp x s = .next (s.skipIf (!keyDown s.key (s.reg x).toNat)).advance :=
  if_neg fun e => absurd ((keyIndexBad_iff _).1 e) (by omega)

/-- The least key that is down is down, is one of the 16, and no lower one is. -/
theorem lowestKeyDown_some {key : Keypad} {k : Nat} (h : lowestKeyDown key = some k) :
    k < 16 ∧ key.getLsbD k = true ∧ ∀ j, j < k → key.getLsbD j = false := by
  rw [lowestKeyDown, List.find?_range_eq_some] at h
  refine ⟨by simpa [Config.numKeys] using h.2.1, h.1, fun j hj => ?_⟩
  simpa [keyDown] using h.2.2 j hj

theorem lowestKeyDown_none {key : Keypad} : lowestKeyDown key = none ↔ ∀ k, k < 16 → key.getLsbD k = false := by
  rw [lowestKeyDown, List.find?_range_eq_none]
  simp [Config.numKeys, keyDown]

theorem execLdVxK_key {s : State} {k : Nat} (h : lowestKeyDown s.key = some k) (x : Reg) :
    execLdVxK x s = .next (s.setReg x (BitVec.ofNat Config.regBits k)).advance := by rw [execLdVxK, h]; rfl

theorem execLdVxK_none {s : State} (h : lowestKeyDown s.key = none) (x : Reg) : execLdVxK x s = .next s := by
  rw [execLdVxK, h]; rfl

theorem execLdB_inRange {s : State} (h : s.I.toNat + 3 ≤ 4096) (x : Reg) :
    execLdB x s = .next (s.setMem (s.mem.writeBytes s.I.toNat (bcdDigits (s.reg x)))).advance :=
  withRange_inRange s _ (.inr h)

theorem execLdMemVx_inRange {s : State} {x : Reg} (h : s.I.toNat + (x.val + 1) ≤ 4096) :
    execLdMemVx x s = .next (s.setMem (s.mem.writeBytes s.I.toNat (s.regsUpTo x))).advance :=
  withRange_inRange s _ (.inr h)

theorem execLdVxMem_inRange {s : State} {x : Reg} (h : s.I.toNat + (x.val + 1) ≤ 4096) :
    execLdVxMem x s = .next (s.setRegs (loadRegs s.mem s.I.toNat s.v (x.val + 1))).advance :=
  withRange_inRange s _ (.inr h)

theorem execDrw_inRange {s : State} {n : Nat} (h : n = 0 ∨ s.I.toNat + n ≤ 4096) (x y : Reg) :
    execDrw x y n s =
      .next ((s.setPicture (spriteCanvas x y n s).1).setFlag (spriteCanvas x y n s).2).advance :=
  withRange_inRange s _ h

/-- An address a store covers holds the stored byte; any other holds what it held. -/
theorem byteAfter_covered {i : Instr} {s : State} {a : Nat} (h : s.I.toNat ≤ a ∧ a < s.I.toNat + storeLength i) :
    byteAfter i s a = storedByte i s (a - s.I.toNat) := if_pos h

theorem byteAfter_outside {i : Instr} {s : State} {a : Nat} (h : ¬(s.I.toNat ≤ a ∧ a < s.I.toNat + storeLength i)) :
    byteAfter i s a = s.mem.read a := if_neg h

/-- A run of `n + 1` steps whose first step answers a next state. -/
theorem core_run_next {s s' : State} (h : step s = .next s') (n : Nat) : core.run (n + 1) s = core.run n s' := by
  have e : core.step s = .next s' := h
  simp only [Host.Core.run]
  rw [e]

end Sys2Proof.Machine
end

