-- ==== Sys2Proof/Laws/PerInstr.lean ====
section
/-! SUPPORT. A fact about each instruction as syntax: its word is accepted by its own row of the opcode map
(spec/30_encoding.md R95), whatever its operands. -/

namespace Sys2Proof.Laws.EncodeMatchesRow

/-- The row of `i` is in the opcode map and accepts the word of `i`. -/
def Statement (i : Instr) : Prop := ∃ r ∈ opcodeTable, r.mnemonic = i.mnemonic ∧ r.accepts (encode i) = true

/-- A row of the four-bit dispatch accepts a word of its class. -/
theorem of_class {m : String} {b w : Word} (h : packNNN (fieldClass w) 0 = b) :
    (OpcodeRow.mk m b 0xF000).accepts w = true := by
  rw [OpcodeRow.accepts, beq_iff_eq]
  exact (and_mask_class w).trans h

/-- A row of class 8 accepts a word with its class and low nibble. -/
theorem of_classN {m : String} {b w : Word} (h : packXY (fieldClass w) 0 0 (fieldN w) = b) :
    (OpcodeRow.mk m b 0xF00F).accepts w = true := by
  rw [OpcodeRow.accepts, beq_iff_eq]
  exact (and_mask_classN w).trans h

/-- A row of class E or F accepts a word with its class and low byte. -/
theorem of_classKK {m : String} {b w : Word} (h : packXKK (fieldClass w) 0 (fieldKK w) = b) :
    (OpcodeRow.mk m b 0xF0FF).accepts w = true := by
  rw [OpcodeRow.accepts, beq_iff_eq]
  exact (and_mask_classKK w).trans h

theorem cls : Statement .cls :=
  ⟨⟨"CLS", 0x00E0, 0xFFFF⟩, by decide, rfl, by decide⟩

theorem ret : Statement .ret :=
  ⟨⟨"RET", 0x00EE, 0xFFFF⟩, by decide, rfl, by decide⟩

theorem jp (nnn : Addr12) : Statement (.jp nnn) :=
  ⟨⟨"JP_nnn", 0x1000, 0xF000⟩, by decide, rfl, of_class (by simp [encode]; rfl)⟩

theorem call (nnn : Addr12) : Statement (.call nnn) :=
  ⟨⟨"CALL_nnn", 0x2000, 0xF000⟩, by decide, rfl, of_class (by simp [encode]; rfl)⟩

theorem seImm (x : Reg) (kk : Byte) : Statement (.seImm x kk) :=
  ⟨⟨"SE_Vx__kk", 0x3000, 0xF000⟩, by decide, rfl, of_class (by simp [encode]; rfl)⟩

theorem sneImm (x : Reg) (kk : Byte) : Statement (.sneImm x kk) :=
  ⟨⟨"SNE_Vx__kk", 0x4000, 0xF000⟩, by decide, rfl, of_class (by simp [encode]; rfl)⟩

theorem seReg (x y : Reg) (n : Nibble) : Statement (.seReg x y n) :=
  ⟨⟨"SE_Vx__Vy", 0x5000, 0xF000⟩, by decide, rfl, of_class (by simp [encode]; rfl)⟩

theorem ldImm (x : Reg) (kk : Byte) : Statement (.ldImm x kk) :=
  ⟨⟨"LD_Vx__kk", 0x6000, 0xF000⟩, by decide, rfl, of_class (by simp [encode]; rfl)⟩

theorem addImm (x : Reg) (kk : Byte) : Statement (.addImm x kk) :=
  ⟨⟨"ADD_Vx__kk", 0x7000, 0xF000⟩, by decide, rfl, of_class (by simp [encode]; rfl)⟩

theorem ldReg (x y : Reg) : Statement (.ldReg x y) :=
  ⟨⟨"LD_Vx__Vy", 0x8000, 0xF00F⟩, by decide, rfl, of_classN (by simp [encode]; rfl)⟩

theorem orReg (x y : Reg) : Statement (.orReg x y) :=
  ⟨⟨"OR_Vx__Vy", 0x8001, 0xF00F⟩, by decide, rfl, of_classN (by simp [encode]; rfl)⟩

theorem andReg (x y : Reg) : Statement (.andReg x y) :=
  ⟨⟨"AND_Vx__Vy", 0x8002, 0xF00F⟩, by decide, rfl, of_classN (by simp [encode]; rfl)⟩

theorem xorReg (x y : Reg) : Statement (.xorReg x y) :=
  ⟨⟨"XOR_Vx__Vy", 0x8003, 0xF00F⟩, by decide, rfl, of_classN (by simp [encode]; rfl)⟩

theorem addReg (x y : Reg) : Statement (.addReg x y) :=
  ⟨⟨"ADD_Vx__Vy", 0x8004, 0xF00F⟩, by decide, rfl, of_classN (by simp [encode]; rfl)⟩

theorem subReg (x y : Reg) : Statement (.subReg x y) :=
  ⟨⟨"SUB_Vx__Vy", 0x8005, 0xF00F⟩, by decide, rfl, of_classN (by simp [encode]; rfl)⟩

theorem shr (x y : Reg) : Statement (.shr x y) :=
  ⟨⟨"SHR_Vx", 0x8006, 0xF00F⟩, by decide, rfl, of_classN (by simp [encode]; rfl)⟩

theorem subnReg (x y : Reg) : Statement (.subnReg x y) :=
  ⟨⟨"SUBN_Vx__Vy", 0x8007, 0xF00F⟩, by decide, rfl, of_classN (by simp [encode]; rfl)⟩

theorem shl (x y : Reg) : Statement (.shl x y) :=
  ⟨⟨"SHL_Vx", 0x800E, 0xF00F⟩, by decide, rfl, of_classN (by simp [encode]; rfl)⟩

theorem sneReg (x y : Reg) (n : Nibble) : Statement (.sneReg x y n) :=
  ⟨⟨"SNE_Vx__Vy", 0x9000, 0xF000⟩, by decide, rfl, of_class (by simp [encode]; rfl)⟩

theorem ldI (nnn : Addr12) : Statement (.ldI nnn) :=
  ⟨⟨"LD_I__nnn", 0xA000, 0xF000⟩, by decide, rfl, of_class (by simp [encode]; rfl)⟩

theorem jpV0 (nnn : Addr12) : Statement (.jpV0 nnn) :=
  ⟨⟨"JP_V0__nnn", 0xB000, 0xF000⟩, by decide, rfl, of_class (by simp [encode]; rfl)⟩

theorem rnd (x : Reg) (kk : Byte) : Statement (.rnd x kk) :=
  ⟨⟨"RND_Vx__kk", 0xC000, 0xF000⟩, by decide, rfl, of_class (by simp [encode]; rfl)⟩

theorem drw (x y : Reg) (n : Nat) : Statement (.drw x y n) :=
  ⟨⟨"DRW_Vx__Vy__n", 0xD000, 0xF000⟩, by decide, rfl, of_class (by simp [encode]; rfl)⟩

theorem skp (x : Reg) : Statement (.skp x) :=
  ⟨⟨"SKP_Vx", 0xE09E, 0xF0FF⟩, by decide, rfl, of_classKK (by simp [encode]; rfl)⟩

theorem sknp (x : Reg) : Statement (.sknp x) :=
  ⟨⟨"SKNP_Vx", 0xE0A1, 0xF0FF⟩, by decide, rfl, of_classKK (by simp [encode]; rfl)⟩

theorem ldVxDt (x : Reg) : Statement (.ldVxDt x) :=
  ⟨⟨"LD_Vx__DT", 0xF007, 0xF0FF⟩, by decide, rfl, of_classKK (by simp [encode]; rfl)⟩

theorem ldVxK (x : Reg) : Statement (.ldVxK x) :=
  ⟨⟨"LD_Vx__K", 0xF00A, 0xF0FF⟩, by decide, rfl, of_classKK (by simp [encode]; rfl)⟩

theorem ldDtVx (x : Reg) : Statement (.ldDtVx x) :=
  ⟨⟨"LD_DT__Vx", 0xF015, 0xF0FF⟩, by decide, rfl, of_classKK (by simp [encode]; rfl)⟩

theorem ldStVx (x : Reg) : Statement (.ldStVx x) :=
  ⟨⟨"LD_ST__Vx", 0xF018, 0xF0FF⟩, by decide, rfl, of_classKK (by simp [encode]; rfl)⟩

theorem addI (x : Reg) : Statement (.addI x) :=
  ⟨⟨"ADD_I__Vx", 0xF01E, 0xF0FF⟩, by decide, rfl, of_classKK (by simp [encode]; rfl)⟩

theorem ldF (x : Reg) : Statement (.ldF x) :=
  ⟨⟨"LD_F__Vx", 0xF029, 0xF0FF⟩, by decide, rfl, of_classKK (by simp [encode]; rfl)⟩

theorem ldB (x : Reg) : Statement (.ldB x) :=
  ⟨⟨"LD_B__Vx", 0xF033, 0xF0FF⟩, by decide, rfl, of_classKK (by simp [encode]; rfl)⟩

theorem ldMemVx (x : Reg) : Statement (.ldMemVx x) :=
  ⟨⟨"LD__I___Vx", 0xF055, 0xF0FF⟩, by decide, rfl, of_classKK (by simp [encode]; rfl)⟩

theorem ldVxMem (x : Reg) : Statement (.ldVxMem x) :=
  ⟨⟨"LD_Vx___I", 0xF065, 0xF0FF⟩, by decide, rfl, of_classKK (by simp [encode]; rfl)⟩

end Sys2Proof.Laws.EncodeMatchesRow
end

