-- ==== Sys2Proof/Tests/Slice0.lean ====
section
/-! SUPPORT. The model's own tests. Every expected value comes from spec/95_test_vectors.md (its S and V vectors, named
at each test), from an encoding of spec/30_encoding.md written out, or from a rule named at the test. The theorems
`test_witness_…` show, for each statement that has hypotheses, a concrete state and operands that meet them. -/

namespace Sys2Proof.Tests

open Sys2Proof Sys2Proof.Machine

/-! ### Helpers -/

/-- Reset, the changes `f`, and the instruction word at `a`, where `pc` stands (section 0 of the vectors). -/
def startAt (a : Word) (word : Nat) (f : State → State) : State := ((f State.reset).setPc a).withFetchWord 16 word

/-- The same at 0x200. -/
def start (word : Nat) (f : State → State) : State := startAt 0x200 word f

/-- The state after one step. -/
def after (s : State) : Option State :=
  match step s with
  | .next t => some t
  | .fault _ => none
  | .refused _ => none

/-- Bytes stored before the start. -/
def withBytes (a : Nat) (bs : List Byte) (s : State) : State := s.setMem (s.mem.writeBytes a bs)

/-- What a fault leaves to be seen: cause number, information, `pc`. -/
def faultOf (t : State) : Bool × Nat × Word × Word := (t.halted, t.faultCause.code, t.faultInfo, t.pc)

/-- A framebuffer with the given rows lit, each as its 64 pixels from the left. -/
def screen (rows : List (Fin 32 × BitVec 64)) : Framebuffer :=
  rows.foldl (fun fb r => fb.set r.1.val r.2) (Vector.replicate 32 0)

/-- Registers `v[i] = f i`. -/
def withRegs (f : Nat → Byte) (s : State) : State := s.setRegs (Vector.ofFn fun k => f k.val)

/-! ### Ill-formed terms are refused -/

theorem test_wellFormed_refuses_sixteen_rows : (Instr.drw 0 0 16).wellFormed = false := by decide

theorem test_wellFormed_admits_fifteen_rows : (Instr.drw 0 0 15).wellFormed = true := by decide

theorem test_wellFormed_refuses_long_image : imageWellFormed (List.replicate 3585 0xAB) = false := by
  rw [imageWellFormed, List.length_replicate]; decide

theorem test_wellFormed_admits_longest_image : imageWellFormed (List.replicate 3584 0xAB) = true := by
  rw [imageWellFormed, List.length_replicate]; decide

/-! ### Decoding: bytes written out from the patterns of R95, high byte first -/

theorem test_decode_class_0 :
    decode [0b00000000, 0b11100000] = .instr .cls [] ∧ decode [0b00000000, 0b11101110] = .instr .ret [] := by decide

theorem test_decode_control :
    decode [0b00010010, 0b00110100] = .instr (.jp 0x234) [] ∧
    decode [0b00101010, 0b10111100] = .instr (.call 0xABC) [] ∧
    decode [0b00110001, 0b11110000] = .instr (.seImm 1 0xF0) [] ∧
    decode [0b01000010, 0b00000110] = .instr (.sneImm 2 0x06) [] ∧
    decode [0b01010011, 0b01001111] = .instr (.seReg 3 4 0xF) [] ∧
    decode [0b10011010, 0b10110111] = .instr (.sneReg 0xA 0xB 7) [] ∧
    decode [0b10111111, 0b11111110] = .instr (.jpV0 0xFFE) [] := by decide

theorem test_decode_alu :
    decode [0b01101010, 0b00101111] = .instr (.ldImm 0xA 0x2F) [] ∧
    decode [0b01110001, 0b11111111] = .instr (.addImm 1 0xFF) [] ∧
    decode [0b10000001, 0b00100000] = .instr (.ldReg 1 2) [] ∧
    decode [0b10000001, 0b00100001] = .instr (.orReg 1 2) [] ∧
    decode [0b10000001, 0b00100010] = .instr (.andReg 1 2) [] ∧
    decode [0b10000001, 0b00100011] = .instr (.xorReg 1 2) [] ∧
    decode [0b10000001, 0b00100100] = .instr (.addReg 1 2) [] ∧
    decode [0b10000001, 0b00100101] = .instr (.subReg 1 2) [] ∧
    decode [0b10000001, 0b00100110] = .instr (.shr 1 2) [] ∧
    decode [0b10000001, 0b00100111] = .instr (.subnReg 1 2) [] ∧
    decode [0b10000001, 0b00101110] = .instr (.shl 1 2) [] ∧
    decode [0b11000011, 0b00001111] = .instr (.rnd 3 0x0F) [] := by decide

theorem test_decode_index_memory :
    decode [0b10100011, 0b00000000] = .instr (.ldI 0x300) [] ∧
    decode [0b11110010, 0b00011110] = .instr (.addI 2) [] ∧
    decode [0b11110000, 0b00101001] = .instr (.ldF 0) [] ∧
    decode [0b11110000, 0b00110011] = .instr (.ldB 0) [] ∧
    decode [0b11110001, 0b01010101] = .instr (.ldMemVx 1) [] ∧
    decode [0b11110010, 0b01100101] = .instr (.ldVxMem 2) [] := by decide

theorem test_decode_display_keypad_timers :
    decode [0b11010001, 0b00100101] = .instr (.drw 1 2 5) [] ∧
    decode [0b11100100, 0b10011110] = .instr (.skp 4) [] ∧
    decode [0b11100100, 0b10100001] = .instr (.sknp 4) [] ∧
    decode [0b11110001, 0b00000111] = .instr (.ldVxDt 1) [] ∧
    decode [0b11110010, 0b00001010] = .instr (.ldVxK 2) [] ∧
    decode [0b11110000, 0b00010101] = .instr (.ldDtVx 0) [] ∧
    decode [0b11110101, 0b00011000] = .instr (.ldStVx 5) [] := by decide

/-- The unknown words of section 2.6. -/
theorem test_decode_unknown :
    ([0x0000, 0x00E1, 0x00EF, 0x00FE, 0x0123, 0x01E0, 0x8008, 0x8129, 0x812F, 0xE09F, 0xE19D, 0xE0A0, 0xF000, 0xF030,
      0xF164, 0xF166, 0xF075, 0xF085, 0xFFFF].all fun w => (decodeWord w).isNone) = true := by decide

theorem test_decode_rejects_by_name :
    decode [0xF0, 0x75, 0x12] = .unknownOpcode 0xF075 [0x12] ∧ decode [0x00] = .truncated ∧ decode [] = .truncated := by
  decide

theorem test_decodeTableWord : decodeTableWord 16 0x8124 = some (.addReg 1 2) ∧ decodeTableWord 16 0x8008 = none := by
  decide

/-! ### Control flow (section 2.1) -/

/-- V-RET-1. -/
theorem test_ret_resumes :
    (after (startAt 0x212 0x00EE fun s => { s with sp := 1, stack := s.stack.set 1 0x0204 })).map
      (fun t => (t.pc, t.sp, t.stack[1])) = some (0x206, 0, 0x0204) := by decide

/-- V-RET-3 (S5). -/
theorem test_ret_underflow :
    (after (start 0x00EE id)).map (fun t => (faultOf t, t.sp)) = some ((true, 3, 0x0200, 0x0200), 0) := by decide

/-- V-JP-1 (S8). -/
theorem test_jp : (after (start 0x1234 id)).map (fun t => t.pc) = some 0x234 := by decide

/-- V-CALL-1. -/
theorem test_call :
    (after (startAt 0x204 0x2210 id)).map (fun t => (t.sp, t.stack[1], t.stack[0], t.pc)) =
      some (1, 0x0204, 0, 0x210) := by decide

/-- V-CALL-3. -/
theorem test_call_overflow :
    (after (startAt 0x400 0x2ABC fun s => { s with sp := 15, stack := s.stack.set 15 0x0222 })).map
      (fun t => (faultOf t, t.sp, t.stack[15])) = some ((true, 2, 0x0400, 0x0400), 15, 0x0222) := by decide

/-- V-SE-1, V-SE-2. -/
theorem test_seImm :
    (after (startAt 0x208 0x3100 id)).map (fun t => t.pc) = some 0x20C ∧
    (after (startAt 0x208 0x3100 fun s => s.setReg 1 1)).map (fun t => t.pc) = some 0x20A := by decide

/-- V-SE-4. -/
theorem test_seImm_past_the_end : (after (startAt 0xFFE 0x3000 id)).map (fun t => t.pc) = some 0x1002 := by decide

/-- V-SNE-1, V-SNE-2. -/
theorem test_sneImm :
    (after (startAt 0x300 0x4206 fun s => s.setReg 2 5)).map (fun t => t.pc) = some 0x304 ∧
    (after (startAt 0x300 0x4205 fun s => s.setReg 2 5)).map (fun t => t.pc) = some 0x302 := by decide

/-- V-SER-1, V-SER-2. -/
theorem test_seReg :
    (after (start 0x5340 fun s => (s.setReg 3 7).setReg 4 7)).map (fun t => t.pc) = some 0x204 ∧
    (after (start 0x5340 fun s => (s.setReg 3 7).setReg 4 8)).map (fun t => t.pc) = some 0x202 := by decide

/-- V-SER-3: the low nibble is ignored. -/
theorem test_seReg_low_nibble :
    (after (start 0x534F fun s => (s.setReg 3 7).setReg 4 7)).map (fun t => t.pc) = some 0x204 := by decide

/-- V-SNER-1, V-SNER-2. -/
theorem test_sneReg :
    (after (start 0x9340 fun s => (s.setReg 3 1).setReg 4 2)).map (fun t => t.pc) = some 0x204 ∧
    (after (start 0x9340 fun s => (s.setReg 3 2).setReg 4 2)).map (fun t => t.pc) = some 0x202 := by decide

/-- V-JPV-1, V-JPV-2: the sum is not reduced to 12 bits. -/
theorem test_jpV0 :
    (after (start 0xB300 fun s => s.setReg 0 4)).map (fun t => t.pc) = some 0x304 ∧
    (after (start 0xBFFF fun s => s.setReg 0 0xFF)).map (fun t => t.pc) = some 0x10FE := by decide

/-! ### Load, ALU, random (section 2.2) -/

/-- V-LDI-1. -/
theorem test_ldImm : (after (start 0x6A2F id)).map (fun t => (t.reg 0xA, t.pc)) = some (0x2F, 0x202) := by decide

/-- V-ADDI-2, V-ADDI-3: no carry flag. -/
theorem test_addImm :
    (after (start 0x7101 fun s => (s.setReg 1 0xFF).setReg 15 7)).map (fun t => (t.reg 1, t.reg 15)) = some (0, 7) ∧
    (after (start 0x7F02 fun s => s.setReg 15 0xFF)).map (fun t => t.reg 15) = some 1 := by decide

/-- V-MOV-1. -/
theorem test_ldReg :
    (after (start 0x8120 fun s => (s.setReg 2 0x9C).setReg 15 5)).map (fun t => (t.reg 1, t.reg 2, t.reg 15)) =
      some (0x9C, 0x9C, 5) := by decide

/-- V-OR-1. -/
theorem test_orReg :
    (after (start 0x8121 fun s => ((s.setReg 1 0xF0).setReg 2 0x0C).setReg 15 5)).map
      (fun t => (t.reg 1, t.reg 15)) = some (0xFC, 5) := by decide

/-- V-AND-1. -/
theorem test_andReg :
    (after (start 0x8122 fun s => ((s.setReg 1 0xF0).setReg 2 0x3C).setReg 15 5)).map
      (fun t => (t.reg 1, t.reg 15)) = some (0x30, 5) := by decide

/-- V-XOR-1. -/
theorem test_xorReg :
    (after (start 0x8123 fun s => ((s.setReg 1 0xF0).setReg 2 0x3C).setReg 15 5)).map
      (fun t => (t.reg 1, t.reg 15)) = some (0xCC, 5) := by decide

/-- V-ADD-1 (S2), V-ADD-2, V-ADD-3. -/
theorem test_addReg :
    (after (start 0x8124 fun s => (s.setReg 1 0xFF).setReg 2 1)).map (fun t => (t.reg 1, t.reg 15)) = some (0, 1) ∧
    (after (start 0x8124 fun s => ((s.setReg 1 0x10).setReg 2 0x20).setReg 15 1)).map (fun t => (t.reg 1, t.reg 15)) =
      some (0x30, 0) ∧
    (after (start 0x8124 fun s => s.setReg 1 0xFF)).map (fun t => (t.reg 1, t.reg 15)) = some (0xFF, 0) := by decide

/-- V-ADD-5, V-ADD-6, V-ADD-7: VF as destination and as operand. -/
theorem test_addReg_flag_register :
    (after (start 0x8F14 fun s => (s.setReg 15 0xF0).setReg 1 0x20)).map (fun t => t.reg 15) = some 1 ∧
    (after (start 0x8F14 fun s => (s.setReg 15 0x10).setReg 1 0x20)).map (fun t => t.reg 15) = some 0 ∧
    (after (start 0x81F4 fun s => (s.setReg 1 0xFF).setReg 15 1)).map (fun t => (t.reg 1, t.reg 15)) =
      some (0, 1) := by decide

/-- V-SUB-1 (S3), V-SUB-2, V-SUB-3. -/
theorem test_subReg :
    (after (start 0x8125 fun s => (s.setReg 1 1).setReg 2 2)).map (fun t => (t.reg 1, t.reg 15)) = some (0xFF, 0) ∧
    (after (start 0x8125 fun s => (s.setReg 1 5).setReg 2 2)).map (fun t => (t.reg 1, t.reg 15)) = some (3, 1) ∧
    (after (start 0x8125 fun s => ((s.setReg 1 7).setReg 2 7).setReg 15 1)).map (fun t => (t.reg 1, t.reg 15)) =
      some (0, 0) := by decide

/-- V-SHR-1, V-SHR-4. -/
theorem test_shr :
    (after (start 0x8126 fun s => (s.setReg 1 5).setReg 2 0xFF)).map (fun t => (t.reg 1, t.reg 2, t.reg 15)) =
      some (2, 0xFF, 1) ∧
    (after (start 0x8F06 fun s => s.setReg 15 3)).map (fun t => t.reg 15) = some 1 := by decide

/-- V-SUBN-1, V-SUBN-2, V-SUBN-3. -/
theorem test_subnReg :
    (after (start 0x8127 fun s => (s.setReg 1 2).setReg 2 5)).map (fun t => (t.reg 1, t.reg 15)) = some (3, 1) ∧
    (after (start 0x8127 fun s => (s.setReg 1 5).setReg 2 2)).map (fun t => (t.reg 1, t.reg 15)) = some (0xFD, 0) ∧
    (after (start 0x8127 fun s => ((s.setReg 1 5).setReg 2 5).setReg 15 1)).map (fun t => (t.reg 1, t.reg 15)) =
      some (0, 0) := by decide

/-- V-SHL-1, V-SHL-2, V-SHL-4. -/
theorem test_shl :
    (after (start 0x812E fun s => s.setReg 1 0x81)).map (fun t => (t.reg 1, t.reg 15)) = some (2, 1) ∧
    (after (start 0x834E fun s => ((s.setReg 3 0x21).setReg 4 0xFF).setReg 15 1)).map
      (fun t => (t.reg 3, t.reg 4, t.reg 15)) = some (0x42, 0xFF, 0) ∧
    (after (start 0x8F0E fun s => s.setReg 15 0xC0)).map (fun t => t.reg 15) = some 1 := by decide

/-- V-RND-1, with a second byte injected that stays for the next `Cxkk`. -/
theorem test_rnd :
    (after (start 0xC30F fun s => hostSupplyRandom [0xB7, 0x11] s)).map (fun t => (t.reg 3, t.rndInjected, t.rndDrawn)) =
      some (7, [0x11], 1) := by decide

/-- V-RND-2 without an injected byte: mask 0 gives 0 whatever the free value is. -/
theorem test_rnd_free : ∃ t, exec (.rnd 3 0) State.reset = .next t ∧ t.reg 3 = 0 := ⟨_, rfl, BitVec.and_zero⟩

/-! ### Index and memory (section 2.3) -/

/-- V-LDX-2. -/
theorem test_ldI : (after (start 0xAFFF id)).map (fun t => t.I) = some 0x0FFF := by decide

/-- V-ADDX-2, V-ADDX-3. -/
theorem test_addI :
    (after (start 0xF21E fun s => ((s.setI 0xFFFF).setReg 2 2).setReg 15 5)).map (fun t => (t.I, t.reg 15)) =
      some (1, 5) ∧
    (after (start 0xF21E fun s => ((s.setI 0x0FFF).setReg 2 1).setReg 15 5)).map (fun t => (t.I, t.reg 15)) =
      some (0x1000, 5) := by decide

/-- V-FNT-1, V-FNT-4. -/
theorem test_ldF :
    (after (start 0xF029 fun s => s.setReg 0 5)).map (fun t => t.I) = some 0x19 ∧
    (after (start 0xF029 fun s => s.setReg 0 0xFF)).map (fun t => t.I) = some 0x4FB := by decide

/-- V-BCD-1, V-BCD-3. -/
theorem test_ldB :
    (after (start 0xF033 fun s => (s.setReg 0 0xFE).setI 0x300)).map (fun t => (t.mem.readBytes 0x300 4, t.I)) =
      some ([2, 5, 4, 0], 0x300) ∧
    (after (start 0xF033 fun s => (s.setReg 0 0xFF).setI 0xFFD)).map (fun t => t.mem.readBytes 0xFFD 3) =
      some [2, 5, 5] := by decide

/-- V-BCD-4. -/
theorem test_ldB_out_of_range :
    (after (start 0xF033 fun s => (s.setReg 0 0xFF).setI 0xFFE)).map (fun t => (faultOf t, t.mem.readBytes 0xFFE 2)) =
      some ((true, 4, 0x1000, 0x200), [0, 0]) := by decide

/-- V-DUMP-2. -/
theorem test_ldMemVx :
    (after (start 0xFF55 fun s => withRegs (fun k => BitVec.ofNat 8 (0xA0 + k)) (s.setI 0xFF0))).map
      (fun t => (t.mem.readBytes 0xFF0 16, t.I)) =
      some ([0xA0, 0xA1, 0xA2, 0xA3, 0xA4, 0xA5, 0xA6, 0xA7, 0xA8, 0xA9, 0xAA, 0xAB, 0xAC, 0xAD, 0xAE, 0xAF], 0xFF0) := by
  decide

/-- V-DUMP-3, V-DUMP-5: no byte is written, not even those in range. -/
theorem test_ldMemVx_out_of_range :
    (after (start 0xFF55 fun s => withRegs (fun k => BitVec.ofNat 8 (0xA0 + k)) (s.setI 0xFF1))).map
      (fun t => (faultOf t, t.mem.readBytes 0xFF1 2)) = some ((true, 4, 0x1000, 0x200), [0, 0]) ∧
    (after (start 0xF055 fun s => (s.setReg 0 0x5A).setI 0xFFFF)).map faultOf = some (true, 4, 0xFFFF, 0x200) := by
  decide

/-- V-LOAD-1. -/
theorem test_ldVxMem :
    (after (start 0xF265 fun s => withBytes 0x300 [2, 5, 4, 0xAA] ((s.setReg 3 0x99).setI 0x300))).map
      (fun t => (t.reg 0, t.reg 1, t.reg 2, t.reg 3, t.I)) = some (2, 5, 4, 0x99, 0x300) := by decide

/-- V-LOAD-2. -/
theorem test_ldVxMem_out_of_range :
    (after (start 0xF165 fun s => ((s.setReg 0 0x11).setReg 1 0x22).setI 0xFFF)).map
      (fun t => (faultOf t, t.reg 0, t.reg 1)) = some ((true, 4, 0x1000, 0x200), 0x11, 0x22) := by decide

/-! ### Display (section 2.4) -/

/-- V-CLS-1. -/
theorem test_cls :
    (after (start 0x00E0 fun s =>
        { s.setReg 15 9 with fb := screen [(0, 0x8000000000000000), (5, 0x0020000000000000), (31, 1)] })).map
      (fun t => (t.fb, t.dirty, t.reg 15)) = some (screen [], true, 9) := by decide

/-- V-DRW-1, V-DRW-3: a glyph at the origin, and the glyph clipped at the corner. -/
theorem test_drw :
    (after (start 0xD125 fun s => s.setReg 15 7)).map (fun t => (t.fb, t.reg 15, t.dirty, t.I)) =
      some (screen [(0, 0xF000000000000000), (1, 0x9000000000000000), (2, 0x9000000000000000), (3, 0x9000000000000000),
        (4, 0xF000000000000000)], 0, true, 0) ∧
    (after (start 0xD125 fun s => ((s.setReg 1 0x3E).setReg 2 0x1E).setI 0x19)).map (fun t => (t.fb, t.reg 15)) =
      some (screen [(30, 3), (31, 2)], 0) := by decide

/-- V-DRW-2, V-DRW-8: a partial collision, and VF as both coordinates. -/
theorem test_drw_collision :
    (after (start 0xD121 fun s =>
        { withBytes 0x300 [0xFF] (((s.setReg 1 8).setReg 2 3).setI 0x300) with
          fb := screen [(3, 0x0008080000000000)] })).map (fun t => (t.fb, t.reg 15)) =
      some (screen [(3, 0x00F7080000000000)], 1) ∧
    (after (start 0xDFF1 fun s => withBytes 0x300 [0x80] ((s.setReg 15 5).setI 0x300))).map
      (fun t => (t.fb, t.reg 15)) = some (screen [(5, 0x0400000000000000)], 0) := by decide

/-! ### Keypad and timers (section 2.5) -/

/-- V-SKP-1, V-SKP-2. -/
theorem test_skp :
    (after (start 0xE49E fun s => { s.setReg 4 7 with key := 0x0080 })).map (fun t => t.pc) = some 0x204 ∧
    (after (start 0xE49E fun s => { s.setReg 4 7 with key := 0x0040 })).map (fun t => t.pc) = some 0x202 := by decide

/-- V-SKP-3: no masking to 7. -/
theorem test_skp_bad_index :
    (after (start 0xE49E fun s => { s.setReg 4 0x17 with key := 0x0080 })).map faultOf =
      some (true, 5, 0x17, 0x200) := by decide

/-- V-SKNP-1, V-SKNP-2. -/
theorem test_sknp :
    (after (start 0xE4A1 fun s => s.setReg 4 7)).map (fun t => t.pc) = some 0x204 ∧
    (after (start 0xE4A1 fun s => { s.setReg 4 7 with key := 0x0080 })).map (fun t => t.pc) = some 0x202 := by decide

/-- V-SKNP-3. -/
theorem test_sknp_bad_index :
    (after (start 0xE4A1 fun s => s.setReg 4 0x10)).map faultOf = some (true, 5, 0x10, 0x200) := by decide

/-- V-LDDT-2, V-LDDT-3: the value after the ninth tick's decrement. -/
theorem test_ldVxDt :
    (after (start 0xF107 fun s => { s.setDt 3 with cycleCount := 8 })).map (fun t => (t.dt, t.reg 1)) = some (2, 2) ∧
    (after (start 0xF107 fun s => { s with cycleCount := 8 })).map (fun t => (t.dt, t.reg 1)) = some (0, 0) := by decide

/-- V-KEY-5: a waiting tick counts and runs the timers. -/
theorem test_ldVxK_waits :
    (after (start 0xF20A fun s => { ((s.setReg 2 0x55).setDt 2).setSt 1 with cycleCount := 8 })).map
      (fun t => (t.pc, t.reg 2, t.dt, t.st, t.cycleCount)) = some (0x200, 0x55, 1, 0, 9) := by decide

/-- V-KEY-2, V-KEY-4. -/
theorem test_ldVxK_takes_the_lowest :
    (after (start 0xF20A fun s => { s.setReg 2 0x55 with key := 0x0088 })).map (fun t => (t.reg 2, t.pc)) =
      some (3, 0x202) ∧
    (after (start 0xF20A fun s => { s.setReg 2 0x55 with key := 0x8000 })).map (fun t => (t.reg 2, t.pc)) =
      some (15, 0x202) := by decide

/-- V-SDT-2. -/
theorem test_ldDtVx :
    (after (start 0xF015 fun s => { (s.setReg 0 3).setDt 9 with cycleCount := 8 })).map (fun t => t.dt) = some 3 := by
  decide

/-- V-SST-2. -/
theorem test_ldStVx :
    (after (start 0xF518 fun s => { (s.setReg 5 1).setSt 7 with cycleCount := 17 })).map
      (fun t => (t.st, t.cycleCount, t.tone)) = some (1, 18, true) := by decide

/-! ### The tick, reset and load (sections 2.6, 2.7) -/

/-- V-TICK-2: a fault on a ninth tick keeps the earlier phases. -/
theorem test_tick_unknown_on_ninth :
    (after { State.reset with dt := 4, cycleCount := 8 }).map
      (fun t => (faultOf t, t.cycleCount, t.dt, t.currentInstruction)) = some ((true, 1, 0, 0x200), 9, 3, 0) := by
  decide

/-- V-TICK-3: halted is final. -/
theorem test_tick_halted (s : State) (h : s.halted = true) : step s = .next s := if_pos h

/-- V-FETCH-1, V-FETCH-4: the lowest bad address of a fetch. -/
theorem test_fetch_out_of_range :
    (after { State.reset with pc := 0xFFF, currentInstruction := 0x1FFF }).map
      (fun t => (faultOf t, t.currentInstruction, t.cycleCount)) = some ((true, 4, 0x1000, 0xFFF), 0x1FFF, 1) ∧
    (after { State.reset with pc := 0x10FE }).map faultOf = some (true, 4, 0x10FE, 0x10FE) := by decide

/-- V-FETCH-2, V-FETCH-5: the last legal address, and an odd one. -/
theorem test_fetch :
    (after (startAt 0xFFE 0x6007 id)).map (fun t => (t.reg 0, t.pc, t.halted)) = some (7, 0x1000, false) ∧
    (after { withBytes 0x201 [0x6A, 0x2F] State.reset with pc := 0x201 }).map
      (fun t => (t.reg 0xA, t.pc, t.currentInstruction)) = some (0x2F, 0x203, 0x6A2F) := by decide

/-- V-RST-2: the first tick with nothing loaded. -/
theorem test_reset_tick : (after State.reset).map (fun t => (faultOf t, t.cycleCount)) = some ((true, 1, 0, 0x200), 1) := by
  decide

/-- V-RST-1. -/
theorem test_reset_bytes :
    (State.reset.mem.read 0, State.reset.mem.read 0x4F, State.reset.mem.read 0x50, State.reset.mem.read 0xFFF) =
      (0xF0, 0x80, 0, 0) := by decide

/-- V-LD-4: an odd length is accepted. -/
theorem test_load_three_bytes :
    hostLoad [0x12, 0x00, 0xFF] State.reset = .next (withBytes 0x200 [0x12, 0x00, 0xFF] State.reset) ∧
    (withBytes 0x200 [0x12, 0x00, 0xFF] State.reset).mem.readBytes 0x1FF 5 = [0, 0x12, 0x00, 0xFF, 0] :=
  ⟨rfl, by decide⟩

/-- V-LD-2. -/
theorem test_load_too_large :
    hostLoad (List.replicate 3585 0xAB) State.reset = .fault (.imageTooLarge 3585) := by
  rw [hostLoad, if_neg (by decide), if_neg (by rw [test_wellFormed_refuses_long_image]; decide), List.length_replicate]

/-- The canonical form of memory: writing back what reset left removes the entry. -/
theorem test_memory_canonical :
    (Memory.writeBytes [] 0x300 [1, 2, 0]) = [(0x300, 1), (0x301, 2)] ∧
    (Memory.writeBytes [(0x300, 1), (0x301, 2)] 0x300 [0, 3]) = [(0x301, 3)] ∧
    (Memory.writeBytes [(0x000, 1)] 0x000 [0xF0]) = [] := by decide

/-! ### Witnesses: concrete states and operands that meet the hypotheses of the statements -/

theorem test_witness_DecodeOfEncodeIsIdentity :
    (Instr.drw 15 0 15).wellFormed = true ∧ (Instr.drw 15 0 0).wellFormed = true ∧
    (Instr.seReg 3 4 0xF).wellFormed = true := by decide

theorem test_witness_EncodeOfDecodeIsIdentity :
    decodeWord 0x534F = some (.seReg 3 4 0xF) ∧ decodeWord 0xDFFF = some (.drw 15 15 15) := by decide

/-- At the last address an instruction can have. -/
theorem test_witness_StepRunsTheDecodedInstruction : ∃ (s : State) (w : Word) (i : Instr),
    s.halted = false ∧ s.pc.toNat + 1 = 4095 ∧
    w.toNat = 256 * (s.mem.read s.pc.toNat).toNat + (s.mem.read (s.pc.toNat + 1)).toNat ∧ decodeWord w = some i :=
  ⟨startAt 0xFFE 0x6007 id, 0x6007, .ldImm 0 7, by decide⟩

theorem test_witness_StepOnUnknownWordHalts : ∃ (s : State) (w : Word),
    s.halted = false ∧ s.pc.toNat + 1 = 4095 ∧
    w.toNat = 256 * (s.mem.read s.pc.toNat).toNat + (s.mem.read (s.pc.toNat + 1)).toNat ∧ decodeWord w = none :=
  ⟨startAt 0xFFE 0xF075 id, 0xF075, by decide⟩

/-- The first `pc` out of range, and the last. -/
theorem test_witness_StepWithPcOutOfRangeHalts :
    (∃ s : State, s.halted = false ∧ s.pc.toNat + 1 = 4096) ∧ ∃ s : State, s.halted = false ∧ s.pc.toNat = 65535 :=
  ⟨⟨{ State.reset with pc := 0xFFF }, by decide⟩, ⟨{ State.reset with pc := 0xFFFF }, by decide⟩⟩

theorem test_witness_OnlyResetLeavesTheHaltedState : ∃ (ops : List HostOp) (s t : State),
    s.halted = true ∧ HostOp.reset ∉ ops ∧ hostRun ops s = .next t :=
  ⟨[.tick, .writeKeys 3, .supplyRandom [7], .clearDirty, .tick], { State.reset with halted := true }, _, by decide,
    by decide, rfl⟩

/-- A ninth tick at an instruction that sets no timer, at `Fx15`, at `Fx18`, and with no word to fetch. -/
theorem test_witness_TimersCountDownEveryNinthTick :
    (∃ s : State, s.halted = false ∧ s.pc.toNat + 1 < 4096 ∧ (s.cycleCount + 1) % 9 = 0 ∧ s.wordAtPc = 0xF10A) ∧
    (∃ s : State, s.halted = false ∧ s.pc.toNat + 1 < 4096 ∧ decodeWord s.wordAtPc = some (.ldDtVx 0)) ∧
    (∃ s : State, s.halted = false ∧ s.pc.toNat + 1 < 4096 ∧ decodeWord s.wordAtPc = some (.ldStVx 15)) ∧
    ∃ s : State, s.halted = false ∧ ¬s.pc.toNat + 1 < 4096 :=
  ⟨⟨start 0xF10A fun s => { s with cycleCount := 8 }, by decide⟩, ⟨start 0xF015 id, by decide⟩,
    ⟨start 0xFF18 id, by decide⟩, ⟨{ State.reset with pc := 0xFFF }, by decide⟩⟩

/-- The program of V-TICK-1, from a count that is a multiple of 9 and from one that is not. -/
theorem test_witness_TicksAtRestOnlyRunTheTimers :
    (∃ s : State, s.atRest ∧ s.cycleCount = 0) ∧ ∃ s : State, s.atRest ∧ s.cycleCount = 17 :=
  ⟨⟨start 0x1200 id, ⟨by rw [State.running]; decide, by decide, by decide⟩, by decide⟩,
    ⟨start 0x1200 fun s => { s with cycleCount := 17 }, ⟨by rw [State.running]; decide, by decide, by decide⟩, by decide⟩⟩

theorem test_witness_OnlyTheCountModuloNineMatters : ∃ s t : State, step s = .next t := ⟨start 0xF107 id, _, rfl⟩

theorem test_witness_TraceWordIsPurelyObservational :
    (∃ s t : State, step s = .next t ∧ s.halted = false ∧ s.pc.toNat + 1 < 4096) ∧
    ∃ s t : State, step s = .next t ∧ s.halted = true :=
  ⟨⟨start 0x1200 id, _, rfl, by decide⟩, ⟨{ State.reset with halted := true }, _, rfl, by decide⟩⟩

/-- A state with the invariant whose step pushes, and one on the edge of `pc`. -/
theorem test_witness_EveryStepKeepsTheInvariant :
    (∃ s t : State, s.Inv ∧ step s = .next t ∧ t.sp = 1) ∧ ∃ s t : State, s.Inv ∧ step s = .next t ∧ t.pc = 0x10FE :=
  ⟨⟨startAt 0xFFE 0x2210 id, _, ⟨by decide, by decide, by decide, by decide, by decide, by decide⟩, rfl, by decide⟩,
    ⟨start 0xBFFF (fun s => s.setReg 0 0xFF), _, ⟨by decide, by decide, by decide, by decide, by decide, by decide⟩, rfl,
      by decide⟩⟩

theorem test_witness_EverySessionKeepsTheInvariant : ∃ (ops : List HostOp) (s t : State),
    s.Inv ∧ hostRun ops s = .next t ∧ t.pc = 0x202 :=
  ⟨[.load [0xF2, 0x0A, 0x12, 0x02], .tick, .writeKeys 4, .tick], State.reset, _,
    ⟨by decide, by decide, by decide, by decide, by decide, by decide⟩, rfl, by decide⟩

theorem test_witness_LoadCopiesTheImage :
    State.reset.mem.wf = true ∧ State.reset.ticked = false ∧ (List.replicate 3584 (0xAB : Byte)).length = 3584 ∧
    (List.replicate 3585 (0xAB : Byte)).length = 3585 :=
  ⟨by decide, by decide, List.length_replicate, List.length_replicate⟩

/-- Memory changed by a load, by a reset and by a tick. -/
theorem test_witness_LoadCopiesTheImage_only_path :
    (∃ t, hostDo (.load [1]) State.reset = .next t ∧ t.mem ≠ State.reset.mem) ∧
    (∃ s t : State, hostDo .reset s = .next t ∧ t.mem ≠ s.mem) ∧
    ∃ s t : State, hostDo .tick s = .next t ∧ t.mem ≠ s.mem :=
  ⟨⟨_, rfl, by decide⟩, ⟨withBytes 0x300 [1] State.reset, _, rfl, by decide⟩,
    ⟨start 0xF055 fun s => (s.setReg 0 1).setI 0x300, _, rfl, by decide⟩⟩

/-- A machine that runs on, and one that its first tick halts, each with host operations after it. -/
theorem test_witness_LoadAfterTheFirstTickIsRefused :
    (∃ s t u : State, s.halted = false ∧ step s = .next t ∧ hostRun [.writeKeys 1, .tick, .clearDirty] t = .next u) ∧
    ∃ s t u : State, s.halted = false ∧ step s = .next t ∧ t.halted = true ∧
      hostRun [.tick, .supplyRandom [3]] t = .next u :=
  ⟨⟨start 0x1200 id, _, _, by decide, rfl, rfl⟩, ⟨State.reset, _, _, by decide, rfl, by decide, rfl⟩⟩

/-- `sp` at both ends of each clause. -/
theorem test_witness_CallPushesItsOwnAddress :
    State.reset.sp.val = 0 ∧ ({ State.reset with sp := 14 } : State).sp.val < 15 ∧
    ({ State.reset with sp := 15 } : State).sp.val = 15 := by decide

theorem test_witness_CallsNestToTheStackDepth : State.reset.halted = false ∧ State.reset.sp.val = 0 := by decide

/-- The 15th Call still nests and the 16th overflows (D6, D17). -/
theorem test_call_overflow_at_the_16th :
    (∃ t, execAll ((List.replicate 15 0x300).map Instr.call) State.reset = .next t ∧ t.halted = false ∧ t.sp.val = 15) ∧
    ∃ t, execAll ((List.replicate 16 0x300).map Instr.call) State.reset = .next t ∧ t.halted = true ∧
      t.faultCause = .stackOverflow ∧ t.faultInfo = 0x300 :=
  ⟨⟨_, rfl, by decide, by decide⟩, _, rfl, by decide, by decide, by decide⟩

theorem test_witness_ReturnResumesAfterTheCall :
    0 < ({ State.reset with sp := 1 } : State).sp.val ∧ 0 < ({ State.reset with sp := 15 } : State).sp.val ∧
    State.reset.sp.val = 0 := by decide

/-- A Call at `sp = 14`, and a subroutine that has loaded a register and jumped. -/
theorem test_witness_CallThenReturnComesBack : ∃ s t u : State,
    s.sp.val < 15 ∧ exec (.call 0x300) s = .next t ∧ u.sp = t.sp ∧ u.stack = t.stack ∧ u ≠ t :=
  ⟨{ State.reset with sp := 14 }, _,
    { State.reset with sp := 15, stack := State.reset.stack.set 15 0x200, pc := 0x320, v := State.reset.v.set 3 9 },
    by decide, rfl, by decide, by decide, by decide⟩

/-- A destination that is not VF, and registers that are neither; the same for the subtractions and the shifts. -/
theorem test_witness_AddSetsResultThenCarry : (1 : Reg) ≠ 15 ∧ (3 : Reg) ≠ 1 ∧ (3 : Reg) ≠ 15 := by decide

/-- The injected case and the free one. -/
theorem test_witness_RandomConsumesOneMaskedByte :
    (hostSupplyRandom [0xB7] State.reset).rndInjected = 0xB7 :: [] ∧ State.reset.rndInjected = [] := by decide

/-- The last base from which three bytes fit. -/
theorem test_witness_BcdStoresTheDecimalDigits : ∃ s : State, s.mem.wf = true ∧ s.I.toNat + 2 = 4095 :=
  ⟨State.reset.setI 0xFFD, by decide⟩

/-- One register at the last byte, and all 16 up to it; the same for the load and the round trip. -/
theorem test_witness_RegisterDumpStoresRegistersInOrder :
    (∃ (x : Reg) (s : State), s.mem.wf = true ∧ s.I.toNat + x.val < 4096 ∧ x = 15 ∧ s.I = 0xFF0) ∧
    ∃ (x : Reg) (s : State), s.mem.wf = true ∧ s.I.toNat + x.val < 4096 ∧ x = 0 ∧ s.I = 0xFFF :=
  ⟨⟨15, State.reset.setI 0xFF0, by decide⟩, ⟨0, State.reset.setI 0xFFF, by decide⟩⟩

theorem test_witness_RegisterLoadReadsMemoryInOrder :
    (∃ (x : Reg) (s : State), s.I.toNat + x.val < 4096 ∧ x = 15 ∧ s.I = 0xFF0) ∧
    ∃ (x : Reg) (s : State), s.I.toNat + x.val < 4096 ∧ x = 0 ∧ s.I = 0xFFF :=
  ⟨⟨15, State.reset.setI 0xFF0, by decide⟩, ⟨0, State.reset.setI 0xFFF, by decide⟩⟩

theorem test_witness_DumpThenLoadRestoresRegisters : ∃ (x : Reg) (s : State),
    s.mem.wf = true ∧ s.I.toNat + x.val < 4096 ∧ x = 15 ∧ s.reg 15 ≠ 0 :=
  ⟨15, (State.reset.setI 0x400).setReg 15 2, by decide⟩

/-- Each instruction at the first base that does not fit, and a base beyond memory. -/
theorem test_witness_OutOfRangeAccessHaltsBeforeAnyWrite :
    (∃ (i : Instr) (s : State), 4096 < s.I.toNat + 3 ∧ i = .ldB 0 ∧ s.I = 0xFFE) ∧
    (∃ (i : Instr) (s : State), 4096 < s.I.toNat + ((15 : Reg).val + 1) ∧ i = .ldMemVx 15 ∧ s.I = 0xFF1) ∧
    (∃ (i : Instr) (s : State), 4096 < s.I.toNat + ((0 : Reg).val + 1) ∧ i = .ldVxMem 0 ∧ s.I = 0x1000) ∧
    ∃ (i : Instr) (s : State), 4096 < s.I.toNat + 1 ∧ i = .drw 0 0 1 ∧ s.I = 0xFFFF :=
  ⟨⟨_, State.reset.setI 0xFFE, by decide, rfl, rfl⟩, ⟨_, State.reset.setI 0xFF1, by decide, rfl, rfl⟩,
    ⟨_, State.reset.setI 0x1000, by decide, rfl, rfl⟩, ⟨_, State.reset.setI 0xFFFF, by decide, rfl, rfl⟩⟩

/-- Program P5's fourth tick: a dump that covers both bytes of the next word. -/
theorem test_witness_StoreIsSeenByTheNextFetch : ∃ (i : Instr) (s t : State),
    i = .ldMemVx 1 ∧ s.mem.wf = true ∧ s.halted = false ∧ s.I.toNat + storeLength i ≤ 4096 ∧ s.pc.toNat + 3 < 4096 ∧
    decodeWord s.wordAtPc = some i ∧ step s = .next t ∧
    (byteAfter i s (s.pc.toNat + 2), byteAfter i s (s.pc.toNat + 3)) = (0x12, 0x08) :=
  ⟨.ldMemVx 1, startAt 0x206 0xF155 (fun s => ((s.setReg 0 0x12).setReg 1 8).setI 0x208), _, rfl, by decide, by decide,
    by decide, by decide, by decide, rfl, by decide⟩

/-- Digits whose last one covers the first byte only, at the end of memory, and a dump that covers neither byte. -/
theorem test_witness_StoreIsSeenByTheNextFetch_in_part :
    (∃ (i : Instr) (s t : State), i = .ldB 0 ∧ s.mem.wf = true ∧ s.halted = false ∧
      s.I.toNat + storeLength i ≤ 4096 ∧ s.pc.toNat + 3 = 4095 ∧ decodeWord s.wordAtPc = some i ∧ step s = .next t ∧
      (byteAfter i s (s.pc.toNat + 2), byteAfter i s (s.pc.toNat + 3)) = (4, 0)) ∧
    ∃ (i : Instr) (s t : State), i = .ldMemVx 0 ∧ s.mem.wf = true ∧ s.halted = false ∧
      s.I.toNat + storeLength i = 4096 ∧ s.pc.toNat + 3 < 4096 ∧ decodeWord s.wordAtPc = some i ∧ step s = .next t ∧
      byteAfter i s (s.pc.toNat + 2) = 0 :=
  ⟨⟨.ldB 0, startAt 0xFFC 0xF033 (fun s => (s.setReg 0 254).setI 0xFFC), _, rfl, by decide, by decide, by decide,
      by decide, by decide, rfl, by decide⟩,
    ⟨.ldMemVx 0, start 0xF055 (fun s => s.setI 0xFFF), _, rfl, by decide, by decide, by decide, by decide, by decide, rfl,
      by decide⟩⟩

/-- No row at an `I` beyond memory, one row at the last byte, 15 rows up to it. -/
theorem test_witness_DrawInvertsExactlyTheSpritePixels : ∃ (n : Nat) (s : State),
    n ≤ 15 ∧ (n = 0 ∨ s.I.toNat + n ≤ 4096) ∧ n = 15 ∧ s.I = 0xFF1 := ⟨15, State.reset.setI 0xFF1, by decide⟩

theorem test_witness_DrawInvertsExactlyTheSpritePixels_edges :
    (∃ s : State, (0 = 0 ∨ s.I.toNat + 0 ≤ 4096) ∧ s.I = 0xFFFF) ∧
    ∃ s : State, (1 = 0 ∨ s.I.toNat + 1 ≤ 4096) ∧ s.I = 0xFFF :=
  ⟨⟨State.reset.setI 0xFFFF, by decide⟩, ⟨State.reset.setI 0xFFF, by decide⟩⟩

/-- Glyph "A" on an empty screen: no collision at first, and a visible 1 bit. -/
theorem test_witness_DrawingTwiceRestoresTheScreen : ∃ (x y : Reg) (n : Nat) (s t : State),
    x ≠ 15 ∧ y ≠ 15 ∧ n ≤ 15 ∧ s.I.toNat + n ≤ 4096 ∧ exec (.drw x y n) s = .next t ∧ t.reg 15 = 0 ∧
    spriteLit x y n s 7 10 = true :=
  ⟨1, 2, 5, ((State.reset.setReg 1 10).setReg 2 7).setI 0x32, _, by decide, by decide, by decide, by decide, rfl,
    by decide, by decide⟩

/-- A tick and a reset that change the pixels, an instruction that does not, and a draw on two screens. -/
theorem test_witness_OnlyClearDrawAndResetWriteThePixels :
    (∃ s t : State, hostDo .tick s = .next t ∧ t.fb ≠ s.fb) ∧ (∃ s t : State, hostDo .reset s = .next t ∧ t.fb ≠ s.fb) ∧
    (∃ s t : State, exec (.ldMemVx 3) s = .next t) ∧
    ∃ (s t t' : State) (f : Framebuffer), exec (.drw 0 0 1) s = .next t ∧ exec (.drw 0 0 1) { s with fb := f } = .next t' ∧
      t.fb ≠ t'.fb :=
  ⟨⟨start 0xD005 id, _, rfl, by decide⟩, ⟨{ State.reset with fb := screen [(0, 1)] }, _, rfl, by decide⟩,
    ⟨State.reset, _, rfl⟩, ⟨State.reset, _, _, screen [(0, 0x8000000000000000)], rfl, rfl, by decide⟩⟩

/-- The last key number and the first that is none. -/
theorem test_witness_KeySkipsTestTheNumberedKey :
    ((State.reset.setReg 4 15).reg 4).toNat ≤ 15 ∧ 15 < ((State.reset.setReg 4 16).reg 4).toNat := by decide

/-- No key, the lowest, the highest. -/
theorem test_witness_KeyWaitTakesTheLowestKeyOrHolds :
    (∀ k, k < 16 → State.reset.key.getLsbD k = false) ∧
    ((hostWriteKeys 0x0001 State.reset).key.getLsbD 0 = true ∧
      ∀ j, j < 0 → (hostWriteKeys 0x0001 State.reset).key.getLsbD j = false) ∧
    (hostWriteKeys 0x8000 State.reset).key.getLsbD 15 = true ∧
      ∀ j, j < 15 → (hostWriteKeys 0x8000 State.reset).key.getLsbD j = false := by decide

theorem test_witness_OnlyAKeyEndsTheWait :
    (∃ s t : State, s.halted = false ∧ s.pc.toNat + 1 < 4096 ∧ decodeWord s.wordAtPc = some (.ldVxK 2) ∧
      step s = .next t ∧ s.key = 0) ∧
    ∃ s t : State, s.halted = false ∧ s.pc.toNat + 1 < 4096 ∧ decodeWord s.wordAtPc = some (.ldVxK 2) ∧
      step s = .next t ∧ s.key ≠ 0 :=
  ⟨⟨start 0xF20A id, _, by decide, by decide, by decide, rfl, by decide⟩,
    ⟨start 0xF20A (hostWriteKeys 0x8000), _, by decide, by decide, by decide, rfl, by decide⟩⟩

theorem test_witness_DelayTimerIsReadAfterTheCadence_sound :
    ∃ t, exec (.ldStVx 1) State.reset = .next t := ⟨_, rfl⟩

theorem test_witness_DelayTimerIsReadAfterTheCadence : ∃ s t : State,
    s.halted = false ∧ s.pc.toNat + 1 < 4096 ∧ decodeWord s.wordAtPc = some (.ldVxDt 1) ∧ step s = .next t ∧
    (s.cycleCount + 1) % 9 = 0 ∧ s.dt = 0 :=
  ⟨start 0xF107 fun s => { s with cycleCount := 8 }, _, by decide, by decide, by decide, rfl, by decide, by decide⟩

theorem test_witness_TimerSetsCopyTheRegister :
    (∃ s t : State, s.halted = false ∧ s.pc.toNat + 1 < 4096 ∧ step s = .next t ∧
      decodeWord s.wordAtPc = some (.ldDtVx 5)) ∧
    ∃ s t : State, s.halted = false ∧ s.pc.toNat + 1 < 4096 ∧ step s = .next t ∧
      decodeWord s.wordAtPc = some (.ldStVx 5) :=
  ⟨⟨start 0xF515 id, _, by decide, by decide, rfl, by decide⟩, ⟨start 0xF518 id, _, by decide, by decide, rfl, by decide⟩⟩

/-- One instruction for each clause: each field changed by the instruction that may change it, each way of leaving
`pc`. -/
theorem test_witness_InstructionsWriteOnlyWhatTheMatrixSays :
    (∃ t, exec (.ldI 0x300) State.reset = .next t ∧ t.I ≠ State.reset.I) ∧
    (∃ t, exec (.call 0x300) State.reset = .next t ∧ t.stack ≠ State.reset.stack ∧ t.sp ≠ State.reset.sp) ∧
    (∃ t, exec (.ldDtVx 1) (State.reset.setReg 1 9) = .next t ∧ t.dt ≠ 0) ∧
    (∃ t, exec (.ldStVx 1) (State.reset.setReg 1 9) = .next t ∧ t.st ≠ 0) ∧
    (∃ t, exec .cls State.reset = .next t ∧ t.dirty ≠ State.reset.dirty) ∧
    (∃ t, exec (.rnd 1 0) State.reset = .next t ∧ t.rndDrawn ≠ 0 ∧ writesReg (.rnd 1 0) 2 = false) ∧
    (∃ t, exec (.ldB 1) State.reset = .next t ∧ t.halted = false ∧ pcEffect (.ldB 1) = .advances) ∧
    (∃ t, exec (.skp 1) State.reset = .next t ∧ t.halted = false ∧ pcEffect (.skp 1) = .maySkip) ∧
    ∃ t, exec (.ldVxK 1) State.reset = .next t ∧ t.halted = false ∧ pcEffect (.ldVxK 1) = .mayHold :=
  ⟨⟨_, rfl, by decide⟩, ⟨_, rfl, by decide⟩, ⟨_, rfl, by decide⟩, ⟨_, rfl, by decide⟩, ⟨_, rfl, by decide⟩,
    ⟨_, rfl, by decide⟩, ⟨_, rfl, by decide⟩, ⟨_, rfl, by decide⟩, ⟨_, rfl, by decide⟩⟩

/-- Each case of the list at the first state in which it faults, and an instruction that never does. -/
theorem test_witness_OnlyTheListedInstructionsFault :
    (∃ t, exec .ret State.reset = .next t ∧ t.halted = true) ∧
    (∃ t, exec (.call 0x300) { State.reset with sp := 15 } = .next t ∧ t.halted = true) ∧
    (∃ t, exec (.drw 1 2 1) (State.reset.setI 0x1000) = .next t ∧ t.halted = true) ∧
    (∃ t, exec (.ldB 1) (State.reset.setI 0xFFE) = .next t ∧ t.halted = true) ∧
    (∃ t, exec (.ldMemVx 15) (State.reset.setI 0xFF1) = .next t ∧ t.halted = true) ∧
    (∃ t, exec (.ldVxMem 0) (State.reset.setI 0x1000) = .next t ∧ t.halted = true) ∧
    (∃ t, exec (.skp 4) (State.reset.setReg 4 16) = .next t ∧ t.halted = true) ∧
    (∃ t, exec (.sknp 4) (State.reset.setReg 4 16) = .next t ∧ t.halted = true) ∧
    ∃ t, exec .cls State.reset = .next t ∧ t.halted = false := by
  refine ⟨⟨_, rfl, ?_⟩, ⟨_, rfl, ?_⟩, ⟨_, rfl, ?_⟩, ⟨_, rfl, ?_⟩, ⟨_, rfl, ?_⟩, ⟨_, rfl, ?_⟩, ⟨_, rfl, ?_⟩, ⟨_, rfl, ?_⟩,
    ⟨_, rfl, ?_⟩⟩ <;> rfl

/-- The states just short of those, `n = 0` at any `I` among them. -/
theorem test_witness_OnlyTheListedInstructionsFault_not :
    (∃ t, exec (.drw 1 2 0) (State.reset.setI 0xFFFF) = .next t ∧ t.halted = false) ∧
    (∃ t, exec (.ldB 1) (State.reset.setI 0xFFD) = .next t ∧ t.halted = false) ∧
    (∃ t, exec (.ldVxMem 15) (State.reset.setI 0xFF0) = .next t ∧ t.halted = false) ∧
    ∃ t, exec (.skp 4) (State.reset.setReg 4 15) = .next t ∧ t.halted = false := by
  refine ⟨⟨_, rfl, ?_⟩, ⟨_, rfl, ?_⟩, ⟨_, rfl, ?_⟩, ⟨_, rfl, ?_⟩⟩ <;> rfl

/-- A fault in the fetch, an unknown word, a fault of an instruction. -/
theorem test_witness_FaultsArePrecise :
    (∃ s t : State, s.halted = false ∧ step s = .next t ∧ t.halted = true ∧ s.pc = 0xFFF) ∧
    (∃ s t : State, s.halted = false ∧ step s = .next t ∧ t.halted = true ∧ s.wordAtPc = 0xF075) ∧
    ∃ s t : State, s.halted = false ∧ step s = .next t ∧ t.halted = true ∧ s.wordAtPc = 0x00EE :=
  ⟨⟨{ State.reset with pc := 0xFFF }, _, rfl, rfl, rfl, rfl⟩, ⟨start 0xF075 id, _, by decide, rfl, by decide, by decide⟩,
    ⟨start 0x00EE id, _, by decide, rfl, by decide, by decide⟩⟩

theorem test_witness_InputsReachOnlyTheirInstructions :
    (∃ t, exec (.ldImm 1 2) State.reset = .next t ∧ ∀ x, (Instr.ldImm 1 2) ≠ .skp x ∧ (Instr.ldImm 1 2) ≠ .sknp x ∧
      (Instr.ldImm 1 2) ≠ .ldVxK x) ∧
    ∃ t, exec (.skp 1) State.reset = .next t ∧ ∀ x kk, (Instr.skp 1) ≠ .rnd x kk :=
  ⟨⟨_, rfl, fun _ => ⟨nofun, nofun, nofun⟩⟩, ⟨_, rfl, fun _ _ => nofun⟩⟩

end Sys2Proof.Tests
end

section
/-! SUPPORT and PROOFS. Control flow (spec/41_control_flow.md R141, R143, R144): where a jump and a skip leave `pc`, in
natural numbers modulo 65536 as the spec writes it. -/

namespace Sys2Proof.Machine

theorem exec_jp (nnn : Addr12) (s : State) : exec (.jp nnn) s = .next (s.setPc (pcOfAddr nnn)) := rfl

theorem exec_seImm (x : Reg) (kk : Byte) (s : State) :
    exec (.seImm x kk) s = .next (s.skipIf (s.reg x == kk)).advance := rfl

theorem exec_sneImm (x : Reg) (kk : Byte) (s : State) :
    exec (.sneImm x kk) s = .next (s.skipIf (s.reg x != kk)).advance := rfl

theorem pcOfAddr_eq_ofNat (a : Addr12) : pcOfAddr a = BitVec.ofNat 16 a.toNat := (BitVec.ofNat_toNat 16 a).symm

/-- The skip of the execute phase and the advance together (R126, R128). -/
theorem State.advance_skipIf (s : State) (c : Bool) :
    (s.skipIf c).advance = s.setPc (BitVec.ofNat 16 (s.pc.toNat + if c then 4 else 2)) := by
  have hpc : (s.skipIf c).advance.pc = BitVec.ofNat 16 (s.pc.toNat + if c then 4 else 2) := by
    cases c with
    | false => simp [BitVec.ofNat_add]
    | true => simp [BitVec.ofNat_add, BitVec.add_assoc]
  exact congrArg s.setPc hpc

/-- Settles O24: the jump redirects `pc` and nothing is added to it. -/
theorem jumpSetsPcExactly : Obligations.JumpSetsPcExactly := by
  intro nnn s
  rw [exec_jp, pcOfAddr_eq_ofNat]
  rfl

/-- Settles O25: the two skips differ only in which outcome of the comparison moves `pc` by 4. -/
theorem immediateSkipsMovePcByFourOrTwo : Obligations.ImmediateSkipsMovePcByFourOrTwo := by
  intro x kk s
  rw [exec_seImm, exec_sneImm, State.advance_skipIf, State.advance_skipIf]
  by_cases h : s.reg x = kk
  · simp [h, State.setPc]
  · have hn : (s.reg x).toNat ≠ kk.toNat := fun e => h (BitVec.eq_of_toNat_eq e)
    simp [h, hn, State.setPc]

end Sys2Proof.Machine
end

section
/-! SUPPORT and PROOFS. Register loads and ALU operations (spec/42_load_alu_random.md R161): an instruction that writes
one register and completes changes that register and `pc`, nothing else. -/

namespace Sys2Proof.Machine

theorem exec_addImm (x : Reg) (kk : Byte) (s : State) :
    exec (.addImm x kk) s = .next (s.setReg x (s.reg x + kk)).advance := rfl

/-- The frame of an instruction that writes one register and completes. -/
theorem State.advance_setReg (s : State) (x : Reg) (b : Byte) :
    (s.setReg x b).advance = { s with v := s.v.set x.val b, pc := s.pc + 2 } := rfl

/-- Settles O33: the only register written is `x`, with the truncated sum; no flag is written, so `x = 15` needs no
case of its own. -/
theorem addImmediateWrapsWithoutFlag : Obligations.AddImmediateWrapsWithoutFlag := by
  intro x kk s
  refine ⟨_, exec_addImm x kk s, ?_, fun k hk => ?_, State.advance_setReg s x _⟩
  · rw [State.advance_reg, State.reg_setReg_same]
    exact BitVec.toNat_add (s.reg x) kk
  · rw [State.advance_reg, State.reg_setReg_ne s x k _ hk]

end Sys2Proof.Machine
end

section
/-! SUPPORT and PROOFS. Index loads (spec/43_index_memory.md R190, R192): an instruction that writes `I` and completes
changes `I` and `pc`, nothing else. -/

namespace Sys2Proof.Machine

theorem exec_ldI (nnn : Addr12) (s : State) : exec (.ldI nnn) s = .next (s.setI (indexOfAddr nnn)).advance := rfl

theorem exec_ldF (x : Reg) (s : State) :
    exec (.ldF x) s = .next (s.setI (indexOfByte (s.reg x) * BitVec.ofNat Config.iBits Config.glyphBytes)).advance := rfl

/-- The frame of an instruction that writes `I` and completes. -/
theorem State.advance_setI (s : State) (w : IndexWord) : (s.setI w).advance = { s with I := w, pc := s.pc + 2 } := rfl

/-- The product of `Fx29` is the unreduced one: five times a byte fits `I`. -/
theorem toNat_glyphAddress (b : Byte) :
    (indexOfByte b * BitVec.ofNat Config.iBits Config.glyphBytes).toNat = 5 * b.toNat := by
  have hb : b.toNat < 256 := byte_lt b
  have hfit : b.toNat * 5 < 65536 := by omega
  calc (indexOfByte b * BitVec.ofNat Config.iBits Config.glyphBytes).toNat
      = (indexOfByte b).toNat * 5 % 65536 := BitVec.toNat_mul _ _
    _ = b.toNat * 5 := by rw [toNat_indexOfByte, Nat.mod_eq_of_lt hfit]
    _ = 5 * b.toNat := Nat.mul_comm _ _

/-- Settles O39: both instructions set `I` and advance; the widened address and the widened product lose no bit. -/
theorem indexLoadsSetIndexOnly : Obligations.IndexLoadsSetIndexOnly := by
  intro nnn x s
  constructor
  · exact ⟨_, exec_ldI nnn s, toNat_indexOfAddr nnn, State.advance_setI s _⟩
  · exact ⟨_, exec_ldF x s, toNat_glyphAddress (s.reg x), State.advance_setI s _⟩

end Sys2Proof.Machine
end

section
/-! SUPPORT and PROOFS. Display (spec/44_display.md R210): clearing the screen writes the blank framebuffer, which has
no lit pixel on the grid or off it. -/

namespace Sys2Proof.Machine

/-- The framebuffer CLS writes, with every row 0. -/
def blankFramebuffer : Framebuffer := Vector.replicate Config.fbHeight 0

theorem exec_cls (s : State) : exec .cls s = .next (s.setPicture blankFramebuffer).advance := rfl

/-- The frame of an instruction that writes the picture and completes. -/
theorem State.advance_setPicture (s : State) (f : Framebuffer) :
    (s.setPicture f).advance = { s with fb := f, dirty := true, pc := s.pc + 2 } := rfl

@[simp] theorem pixel_blankFramebuffer (row col : Nat) : blankFramebuffer.pixel row col = false := by
  by_cases h : row < 32
  · rw [pixel_of_lt _ h, blankFramebuffer, Vector.getElem_replicate]
    exact BitVec.getMsbD_zero
  · exact dif_neg h

/-- Settles O47: CLS puts the blank framebuffer in place, and no register, VF included, is written. -/
theorem clearScreenZeroesEveryPixel : Obligations.ClearScreenZeroesEveryPixel := by
  intro s
  refine ⟨_, exec_cls s, fun row col => ?_, State.advance_setPicture s blankFramebuffer⟩
  rw [State.advance_fb, State.setPicture_fb, pixel_blankFramebuffer]

end Sys2Proof.Machine
end

section
/-! SUPPORT and PROOFS. Keypad (spec/45_keypad_timers.md R233): the key wait takes the lowest key that is down, and with
no key down it leaves the state as it is, so that a whole tick of it is only what comes before the execute phase. -/

namespace Sys2Proof.Machine

theorem exec_ldVxK (x : Reg) (s : State) : exec (.ldVxK x) s = execLdVxK x s := rfl

/-- A key that is down with no lower one down is the one the model finds: the converse of `lowestKeyDown_some`. -/
theorem lowestKeyDown_eq_some {key : Keypad} {k : Nat} (hk : k < 16) (hdown : key.getLsbD k = true)
    (hup : ∀ j, j < k → key.getLsbD j = false) : lowestKeyDown key = some k := by
  rw [lowestKeyDown, List.find?_range_eq_some]
  exact ⟨hdown, List.mem_range.2 hk, fun j hj => by rw [keyDown, hup j hj]; rfl⟩

/-- With no key down the wait changes nothing, `pc` included. -/
theorem exec_ldVxK_none {s : State} (h : ∀ k, k < 16 → s.key.getLsbD k = false) (x : Reg) :
    exec (.ldVxK x) s = .next s :=
  (exec_ldVxK x s).trans (execLdVxK_none (lowestKeyDown_none.2 h) x)

theorem exec_ldVxK_lowest {s : State} {k : Nat} (hk : k < 16) (hdown : s.key.getLsbD k = true)
    (hup : ∀ j, j < k → s.key.getLsbD j = false) (x : Reg) :
    exec (.ldVxK x) s = .next (s.setReg x (BitVec.ofNat Config.regBits k)).advance :=
  (exec_ldVxK x s).trans (execLdVxK_key (lowestKeyDown_eq_some hk hdown hup) x)

/-- The phases before the execute phase leave the keypad as the host wrote it. -/
@[simp] theorem State.latch_beginTick_key (s : State) (w : Word) : (s.beginTick.latch w).key = s.key := rfl

/-- A waiting tick ends in the state in which its execute phase began. -/
theorem step_ldVxK_none {s : State} {x : Reg} (hrun : s.halted = false) (hpc : s.pc.toNat + 1 < 4096)
    (hword : decodeWord s.wordAtPc = some (.ldVxK x)) (hkeys : ∀ k, k < 16 → s.key.getLsbD k = false) :
    step s = .next (s.beginTick.latch s.wordAtPc) :=
  calc step s = runWord s.wordAtPc (s.beginTick.latch s.wordAtPc) := tick_runs hrun hpc
    _ = exec (.ldVxK x) (s.beginTick.latch s.wordAtPc) := runWord_instr hword _
    _ = .next (s.beginTick.latch s.wordAtPc) :=
      exec_ldVxK_none (by rwa [State.latch_beginTick_key]) x

/-- Settles O52: with no key down the execute phase adds nothing to the tick; a key number fits the register it goes
to, and no other register is written. -/
theorem keyWaitTakesTheLowestKeyOrHolds : Obligations.KeyWaitTakesTheLowestKeyOrHolds := by
  intro x s
  refine ⟨fun hnone => exec_ldVxK_none hnone x, fun k hk hdown hup => ?_, fun hrun hpc hword hnone => ?_⟩
  · refine ⟨_, exec_ldVxK_lowest hk hdown hup x, ?_, fun j hj => ?_, State.advance_setReg s x _⟩
    · rw [State.advance_reg, State.reg_setReg_same]
      exact Nat.mod_eq_of_lt (Nat.lt_trans hk (by decide))
    · rw [State.advance_reg, State.reg_setReg_ne s x j _ hj]
  · rw [step_ldVxK_none hrun hpc hword hnone, beginTick_eq]
    rfl

end Sys2Proof.Machine
end

section
/-! SUPPORT and PROOFS. Reset and the host's operations (spec/70_reset_and_hazards.md R293, R295): the two ways `load`
ends before the first tick, and which host operations leave memory alone. -/

namespace Sys2Proof.Machine

/-- What an image has to satisfy, with the bound as the number R293 comes to. -/
theorem imageWellFormed_iff (image : List Byte) : imageWellFormed image = true ↔ image.length ≤ 3584 :=
  decide_eq_true_iff

/-- Before the first tick, an image that fits goes to 0x200 and up. -/
theorem hostLoad_of_fits {image : List Byte} {s : State} (hfirst : s.ticked = false) (hfits : image.length ≤ 3584) :
    hostLoad image s = .next (s.setMem (s.mem.writeBytes 0x200 image)) := by
  rw [hostLoad, hfirst, if_neg Bool.false_ne_true, if_pos ((imageWellFormed_iff image).2 hfits)]

/-- Before the first tick, an image that does not fit is rejected. -/
theorem hostLoad_of_tooLarge {image : List Byte} {s : State} (hfirst : s.ticked = false)
    (hlarge : 3584 < image.length) : hostLoad image s = .fault (.imageTooLarge image.length) := by
  have hbad : ¬ imageWellFormed image = true := fun h => absurd ((imageWellFormed_iff image).1 h) (by omega)
  rw [hostLoad, hfirst, if_neg Bool.false_ne_true, if_neg hbad]

/-- Keys, random bytes and `ClearDirty` each go to a field of their own; memory is written by the other three. -/
theorem hostDo_changes_mem {op : HostOp} {s t : State} (h : hostDo op s = .next t) (hmem : t.mem ≠ s.mem) :
    op = .tick ∨ op = .reset ∨ ∃ image, op = .load image := by
  cases op with
  | tick => exact .inl rfl
  | reset => exact .inr (.inl rfl)
  | load image => exact .inr (.inr ⟨image, rfl⟩)
  | writeKeys key => cases h; exact absurd rfl hmem
  | supplyRandom bytes => cases h; exact absurd rfl hmem
  | clearDirty => cases h; exact absurd rfl hmem

/-- Settles O22: an image that fits ends at or below 4096, so no byte of it is dropped and nothing outside its range is
written. -/
theorem loadCopiesTheImage : Obligations.LoadCopiesTheImage := by
  intro image s hwf hfirst
  refine ⟨fun hfits => ?_, hostLoad_of_tooLarge hfirst, fun _ _ _ => hostDo_changes_mem⟩
  refine ⟨_, hostLoad_of_fits hfirst hfits, rfl, fun k hk => ?_, fun a ha => ?_⟩
  · exact Memory.read_writeBytes_inside image hwf 0x200 k hk (by omega)
  · exact Memory.read_writeBytes_outside image s.mem 0x200 a ha

end Sys2Proof.Machine
end

section
/-! SUPPORT and PROOFS. The encoding (spec/30_encoding.md): decoding undoes encoding and encoding undoes decoding; the
opcode map, the list of unknown words and the patterns follow from these two. -/

namespace Sys2Proof

/-! ### Decoding an encoded instruction -/

/-- Each field comes out of the packed word as it went in; only the row count of `Dxyn` has to fit its nibble. -/
theorem decodeWord_encode {i : Instr} (hwf : i.wellFormed = true) : decodeWord (encode i) = some i := by
  cases i with
  | cls => rfl
  | ret => rfl
  | drw x y n =>
    have hn : n < 16 := Nat.lt_succ_of_le (of_decide_eq_true hwf)
    simp [encode, decodeWord, Nat.mod_eq_of_lt hn]
  | _ => simp [encode, decodeWord, decodeClass8, decodeClassE, decodeClassF]

/-- Settles O1: the general lemma under its obligation's name. -/
theorem decodeOfEncodeIsIdentity : Obligations.DecodeOfEncodeIsIdentity := by
  intro i hwf
  exact decodeWord_encode hwf

/-! ### Encoding a decoded word -/

/-- `i` is what the word `w` stands for: a well-formed instruction whose word is `w`. -/
def Encodes (w : Word) (i : Instr) : Prop := i.wellFormed = true ∧ encode i = w

theorem packNNN_of_class {w : Word} {c : Nibble} (hc : fieldClass w = c) : packNNN c (fieldNNN w) = w := by
  rw [← hc, packNNN_fields]

theorem packXKK_of_class {w : Word} {c : Nibble} (hc : fieldClass w = c) : packXKK c (fieldX w) (fieldKK w) = w := by
  rw [← hc, packXKK_fields]

theorem packXY_of_class {w : Word} {c : Nibble} (hc : fieldClass w = c) :
    packXY c (fieldX w) (fieldY w) (fieldN w) = w := by
  rw [← hc, packXY_fields]

theorem packXKK_of_class_kk {w : Word} {c : Nibble} {kk : Byte} (hc : fieldClass w = c) (hk : fieldKK w = kk) :
    packXKK c (fieldX w) kk = w := by
  rw [← hk, packXKK_of_class hc]

theorem packXY_of_class_n {w : Word} {c n : Nibble} (hc : fieldClass w = c) (hn : fieldN w = n) :
    packXY c (fieldX w) (fieldY w) n = w := by
  rw [← hn, packXY_of_class hc]

theorem encodes_of_decodeClass0 {w : Word} {i : Instr} (h : decodeClass0 w = some i) : Encodes w i := by
  unfold decodeClass0 at h
  split at h
  · next hw => cases h; exact ⟨rfl, hw.symm⟩
  · split at h
    · next hw => cases h; exact ⟨rfl, hw.symm⟩
    · cases h

theorem encodes_of_decodeClass8 {w : Word} {i : Instr} (hc : fieldClass w = 0x8#4) (h : decodeClass8 w = some i) :
    Encodes w i := by
  unfold decodeClass8 at h
  split at h
  case h_10 => cases h
  all_goals
    next hn => cases h; exact ⟨rfl, packXY_of_class_n hc hn⟩

theorem encodes_of_decodeClassE {w : Word} {i : Instr} (hc : fieldClass w = 0xE#4) (h : decodeClassE w = some i) :
    Encodes w i := by
  unfold decodeClassE at h
  split at h
  case h_3 => cases h
  all_goals
    next hk => cases h; exact ⟨rfl, packXKK_of_class_kk hc hk⟩

theorem encodes_of_decodeClassF {w : Word} {i : Instr} (hc : fieldClass w = 0xF#4) (h : decodeClassF w = some i) :
    Encodes w i := by
  unfold decodeClassF at h
  split at h
  case h_10 => cases h
  all_goals
    next hk => cases h; exact ⟨rfl, packXKK_of_class_kk hc hk⟩

/-- The row count that `Dxyn` decodes to fits the nibble it came from, and encodes to it. -/
theorem encodes_drw {w : Word} (hc : fieldClass w = 0xD#4) :
    Encodes w (.drw (fieldX w) (fieldY w) (fieldN w).toNat) := by
  constructor
  · exact decide_eq_true (Nat.le_of_lt_succ (fieldN w).isLt)
  · show packXY 0xD#4 (fieldX w) (fieldY w) (BitVec.ofNat 4 (fieldN w).toNat) = w
    rw [BitVec.ofNat_toNat, BitVec.setWidth_eq, packXY_of_class hc]

/-- Case `h_k` of the decoder's split is class `k - 1`; the last is a class that no nibble has. -/
theorem encodes_of_decodeWord {w : Word} {i : Instr} (h : decodeWord w = some i) : Encodes w i := by
  unfold decodeWord at h
  split at h <;> rename_i hc
  case h_1 => exact encodes_of_decodeClass0 h
  case h_9 => exact encodes_of_decodeClass8 hc h
  case h_14 => cases h; exact encodes_drw hc
  case h_15 => exact encodes_of_decodeClassE hc h
  case h_16 => exact encodes_of_decodeClassF hc h
  case h_2 | h_3 | h_11 | h_12 => cases h; exact ⟨rfl, packNNN_of_class hc⟩
  case h_4 | h_5 | h_7 | h_8 | h_13 => cases h; exact ⟨rfl, packXKK_of_class hc⟩
  case h_6 | h_10 => cases h; exact ⟨rfl, packXY_of_class hc⟩
  case h_17 => cases h

/-- Settles O2: the decoder's own case split says, class by class, which fields the word is packed from. -/
theorem encodeOfDecodeIsIdentity : Obligations.EncodeOfDecodeIsIdentity := by
  intro w i h
  exact encodes_of_decodeWord h

/-! ### The opcode map -/

/-- The facts of Laws/PerInstr.lean as one. -/
theorem encode_accepted_by_row (i : Instr) : Laws.EncodeMatchesRow.Statement i := by
  cases i with
  | cls => exact Laws.EncodeMatchesRow.cls
  | ret => exact Laws.EncodeMatchesRow.ret
  | jp nnn => exact Laws.EncodeMatchesRow.jp nnn
  | call nnn => exact Laws.EncodeMatchesRow.call nnn
  | seImm x kk => exact Laws.EncodeMatchesRow.seImm x kk
  | sneImm x kk => exact Laws.EncodeMatchesRow.sneImm x kk
  | seReg x y n => exact Laws.EncodeMatchesRow.seReg x y n
  | ldImm x kk => exact Laws.EncodeMatchesRow.ldImm x kk
  | addImm x kk => exact Laws.EncodeMatchesRow.addImm x kk
  | ldReg x y => exact Laws.EncodeMatchesRow.ldReg x y
  | orReg x y => exact Laws.EncodeMatchesRow.orReg x y
  | andReg x y => exact Laws.EncodeMatchesRow.andReg x y
  | xorReg x y => exact Laws.EncodeMatchesRow.xorReg x y
  | addReg x y => exact Laws.EncodeMatchesRow.addReg x y
  | subReg x y => exact Laws.EncodeMatchesRow.subReg x y
  | shr x y => exact Laws.EncodeMatchesRow.shr x y
  | subnReg x y => exact Laws.EncodeMatchesRow.subnReg x y
  | shl x y => exact Laws.EncodeMatchesRow.shl x y
  | sneReg x y n => exact Laws.EncodeMatchesRow.sneReg x y n
  | ldI nnn => exact Laws.EncodeMatchesRow.ldI nnn
  | jpV0 nnn => exact Laws.EncodeMatchesRow.jpV0 nnn
  | rnd x kk => exact Laws.EncodeMatchesRow.rnd x kk
  | drw x y n => exact Laws.EncodeMatchesRow.drw x y n
  | skp x => exact Laws.EncodeMatchesRow.skp x
  | sknp x => exact Laws.EncodeMatchesRow.sknp x
  | ldVxDt x => exact Laws.EncodeMatchesRow.ldVxDt x
  | ldVxK x => exact Laws.EncodeMatchesRow.ldVxK x
  | ldDtVx x => exact Laws.EncodeMatchesRow.ldDtVx x
  | ldStVx x => exact Laws.EncodeMatchesRow.ldStVx x
  | addI x => exact Laws.EncodeMatchesRow.addI x
  | ldF x => exact Laws.EncodeMatchesRow.ldF x
  | ldB x => exact Laws.EncodeMatchesRow.ldB x
  | ldMemVx x => exact Laws.EncodeMatchesRow.ldMemVx x
  | ldVxMem x => exact Laws.EncodeMatchesRow.ldVxMem x

/-- The mnemonics of the rows that accept `w`, in the table's order. -/
def acceptingMnemonics (w : Word) : List String := (opcodeTable.filter fun r => r.accepts w).map OpcodeRow.mnemonic

/-- A row that accepts `w` answers for the instruction `w` decodes to, and the row of that instruction accepts it. -/
theorem mem_acceptingMnemonics {w : Word} {m : String} :
    m ∈ acceptingMnemonics w ↔ (decodeWord w).map Instr.mnemonic = some m := by
  constructor
  · intro hm
    obtain ⟨r, hr, rfl⟩ := List.mem_map.1 hm
    exact decodeWord_of_accepts (List.mem_filter.1 hr).1 (List.mem_filter.1 hr).2
  · intro hm
    obtain ⟨i, hi, rfl⟩ := Option.map_eq_some_iff.1 hm
    obtain ⟨r, hr, hname, hacc⟩ := encode_accepted_by_row i
    rw [(encodes_of_decodeWord hi).2] at hacc
    exact List.mem_map.2 ⟨r, List.mem_filter.2 ⟨hr, hacc⟩, hname⟩

/-- No mnemonic stands in two rows, so none is found twice. -/
theorem nodup_acceptingMnemonics (w : Word) : (acceptingMnemonics w).Nodup := by
  have htable : (opcodeTable.map OpcodeRow.mnemonic).Nodup := by decide
  exact htable.sublist (List.filter_sublist.map _)

/-- Settles O3: the mnemonics found are without repetition and are those of the decoded instruction, of which there is
at most one. -/
theorem opcodeTableAgreesWithDecoder : Obligations.OpcodeTableAgreesWithDecoder := by
  intro w
  show acceptingMnemonics w = _
  cases hd : decodeWord w with
  | none =>
    refine List.eq_nil_iff_forall_not_mem.2 fun m hm => ?_
    rw [mem_acceptingMnemonics, hd] at hm
    cases hm
  | some i =>
    refine List.perm_singleton.1 ((List.perm_ext_iff_of_nodup (nodup_acceptingMnemonics w) (List.pairwise_singleton _ _)).2
      fun m => ?_)
    rw [mem_acceptingMnemonics, hd, Option.map_some, Option.some_inj, List.mem_singleton, eq_comm]

/-! ### The words that are no instruction (R97) -/

theorem fieldClass_eq_iff {w : Word} {c : Nibble} : fieldClass w = c ↔ w.toNat / 4096 = c.toNat := by
  rw [← toNat_fieldClass, BitVec.toNat_inj]

theorem fieldN_eq_iff {w : Word} {n : Nibble} : fieldN w = n ↔ w.toNat % 16 = n.toNat := by
  rw [← toNat_fieldN, BitVec.toNat_inj]

theorem fieldKK_eq_iff {w : Word} {kk : Byte} : fieldKK w = kk ↔ w.toNat % 256 = kk.toNat := by
  rw [← toNat_fieldKK, BitVec.toNat_inj]

theorem decodeClass0_eq_none (w : Word) : decodeClass0 w = none ↔ w.toNat ≠ 0x00E0 ∧ w.toNat ≠ 0x00EE := by
  have hword : ∀ k : Word, w ≠ k ↔ w.toNat ≠ k.toNat := fun k => not_congr BitVec.toNat_inj.symm
  refine Iff.trans ?_ (and_congr (hword 0x00E0) (hword 0x00EE))
  unfold decodeClass0
  split
  · next h => simp [h]
  · next h => simp [h]

theorem decodeClass8_eq_none (w : Word) :
    decodeClass8 w = none ↔ w.toNat % 16 ∈ [0x8, 0x9, 0xA, 0xB, 0xC, 0xD, 0xF] := by
  unfold decodeClass8
  split
  case h_10 =>
    simp only [fieldN_eq_iff, imp_false, BitVec.reduceToNat] at *
    simp only [List.mem_cons, List.not_mem_nil, or_false, true_iff]
    omega
  all_goals
    next hn => simp [fieldN_eq_iff.1 hn]

theorem decodeClassE_eq_none (w : Word) : decodeClassE w = none ↔ w.toNat % 256 ∉ [0x9E, 0xA1] := by
  unfold decodeClassE
  split
  case h_3 => simp_all [fieldKK_eq_iff]
  all_goals
    next hk => simp [fieldKK_eq_iff.1 hk]

theorem decodeClassF_eq_none (w : Word) :
    decodeClassF w = none ↔ w.toNat % 256 ∉ [0x07, 0x0A, 0x15, 0x18, 0x1E, 0x29, 0x33, 0x55, 0x65] := by
  unfold decodeClassF
  split
  case h_10 => simp_all [fieldKK_eq_iff]
  all_goals
    next hk => simp [fieldKK_eq_iff.1 hk]

/-- Settles O4: a word of any other class decodes, and in each of the four classes the class's own decoder says which
words it rejects. -/
theorem unknownWordsAreExactlyTheListed : Obligations.UnknownWordsAreExactlyTheListed := by
  intro w
  rw [← decodeClass0_eq_none, ← decodeClass8_eq_none, ← decodeClassE_eq_none, ← decodeClassF_eq_none]
  unfold decodeWord
  split
  case h_17 =>
    have := w.isLt
    simp only [fieldClass_eq_iff, imp_false, BitVec.reduceToNat] at *
    omega
  all_goals
    next hc => simp [fieldClass_eq_iff.1 hc]

/-! ### The patterns of the opcode map -/

/-- The word of a well-formed instruction, given as a number, decodes to the instruction. -/
theorem decodeWord_ofNat {i : Instr} {k : Nat} (hwf : i.wellFormed = true) (hk : (encode i).toNat = k) :
    decodeWord (BitVec.ofNat 16 k) = some i := by
  rw [ofNat_eq_of_toNat hk, decodeWord_encode hwf]

theorem toNat_packXY_class8 (x y : Reg) (n : Nibble) :
    (packXY 0x8 x y n).toNat = 0x8000 + n.toNat + 256 * x.val + 16 * y.val := by
  rw [toNat_packXY, show (0x8 : Nibble).toNat = 8 from rfl]
  omega

theorem toNat_packXKK_low (c : Nibble) (x : Reg) (kk : Byte) :
    (packXKK c x kk).toNat = 4096 * c.toNat + kk.toNat + 256 * x.val := by
  rw [toNat_packXKK]
  omega

/-- Settles O6: every pattern is the number of an encoded instruction, format by format. -/
theorem everyPatternDecodes : Obligations.EveryPatternDecodes := by
  intro x y n kk nnn
  have hNNN := fun c : Nibble => toNat_packNNN c nnn
  have hXKK := fun c : Nibble => toNat_packXKK c x kk
  have hXY := fun c : Nibble => toNat_packXY c x y n
  have hXY8 := toNat_packXY_class8 x y
  have hX := fun c : Nibble => toNat_packXKK_low c x
  have hdrw : (encode (.drw x y n.toNat)).toNat = 0xD000 + 256 * x.val + 16 * y.val + n.toNat := by
    rw [encode, BitVec.ofNat_toNat, BitVec.setWidth_eq]
    exact hXY 0xD
  exact ⟨rfl, rfl, decodeWord_ofNat rfl (hNNN 1), decodeWord_ofNat rfl (hNNN 2), decodeWord_ofNat rfl (hXKK 3),
    decodeWord_ofNat rfl (hXKK 4), decodeWord_ofNat rfl (hXY 5), decodeWord_ofNat rfl (hXKK 6),
    decodeWord_ofNat rfl (hXKK 7), decodeWord_ofNat rfl (hXY8 0), decodeWord_ofNat rfl (hXY8 1),
    decodeWord_ofNat rfl (hXY8 2), decodeWord_ofNat rfl (hXY8 3), decodeWord_ofNat rfl (hXY8 4),
    decodeWord_ofNat rfl (hXY8 5), decodeWord_ofNat rfl (hXY8 6), decodeWord_ofNat rfl (hXY8 7),
    decodeWord_ofNat rfl (hXY8 0xE), decodeWord_ofNat rfl (hXY 9), decodeWord_ofNat rfl (hNNN 0xA),
    decodeWord_ofNat rfl (hNNN 0xB), decodeWord_ofNat rfl (hXKK 0xC),
    decodeWord_ofNat (decide_eq_true (Nat.le_of_lt_succ n.isLt)) hdrw, decodeWord_ofNat rfl (hX 0xE 0x9E),
    decodeWord_ofNat rfl (hX 0xE 0xA1), decodeWord_ofNat rfl (hX 0xF 0x07), decodeWord_ofNat rfl (hX 0xF 0x0A),
    decodeWord_ofNat rfl (hX 0xF 0x15), decodeWord_ofNat rfl (hX 0xF 0x18), decodeWord_ofNat rfl (hX 0xF 0x1E),
    decodeWord_ofNat rfl (hX 0xF 0x29), decodeWord_ofNat rfl (hX 0xF 0x33), decodeWord_ofNat rfl (hX 0xF 0x55),
    decodeWord_ofNat rfl (hX 0xF 0x65)⟩

/-! ### Samples and bytes -/

/-- Settles O5: thirteen fixed words. -/
theorem sampleWordsDecode : Obligations.SampleWordsDecode := by
  unfold Obligations.SampleWordsDecode
  decide

theorem wordOfBytes_eq_ofNat (hi lo : Byte) : wordOfBytes hi lo = BitVec.ofNat 16 (256 * hi.toNat + lo.toNat) :=
  (ofNat_eq_of_toNat (toNat_wordOfBytes hi lo)).symm

/-- Settles O7: the word of two bytes is `256 × high + low`. -/
theorem byteDecodingIsBigEndian : Obligations.ByteDecodingIsBigEndian := by
  refine ⟨fun hi lo rest => ?_, rfl, fun _ => rfl⟩
  rw [← wordOfBytes_eq_ofNat]
  rfl

end Sys2Proof
end

section
/-! SUPPORT. One normal form of the execute phase (spec/40_tick_cycle.md R125, R126, R129): an instruction takes a fault
or completes, and each of the two is a function of the instruction and the state. Frames, the fault list and
non-interference are facts about these two functions. -/

namespace Sys2Proof.Machine

/-- The fault of an access to `len` bytes from `I` on (R254). -/
def accessFault (len : Nat) (s : State) : Option (FaultCause × Word) :=
  (outOfRange (s.effAddr 0) len).map fun a => (.memoryOutOfRange, addressInfo a)

/-- The fault of testing the key numbered `v[x]` (R255). -/
def keyFault (x : Reg) (s : State) : Option (FaultCause × Word) :=
  if keyIndexBad (s.reg x) then some (.keyIndexOutOfRange, infoOfByte (s.reg x)) else none

/-- The fault an instruction takes in a state, if it takes one (R257). -/
def faultOf : Instr → State → Option (FaultCause × Word)
  | .ret, s => if s.sp.val = 0 then some (.stackUnderflow, s.pc) else none
  | .call _, s => if s.sp.val = 15 then some (.stackOverflow, s.pc) else none
  | .drw _ _ n, s => accessFault n s
  | .ldB _, s => accessFault 3 s
  | .ldMemVx x, s | .ldVxMem x, s => accessFault (x.val + 1) s
  | .skp x, s | .sknp x, s => keyFault x s
  | _, _ => none

/-- The registers and `pc` that the key wait leaves (R233). -/
def keyWait (x : Reg) (s : State) : State :=
  { s with
    v := match lowestKeyDown s.key with
      | some k => s.v.set x.val (BitVec.ofNat Config.regBits k)
      | none => s.v
    pc := match lowestKeyDown s.key with
      | some _ => nextPc s.pc
      | none => s.pc }

/-- The state an instruction leaves when it takes no fault. -/
def completed : Instr → State → State
  | .cls, s => (s.setPicture blankFramebuffer).advance
  | .ret, s => s.popReturn.advance
  | .jp nnn, s => s.setPc (pcOfAddr nnn)
  | .call nnn, s => (s.pushReturn s.pc).setPc (pcOfAddr nnn)
  | .seImm x kk, s => (s.skipIf (s.reg x == kk)).advance
  | .sneImm x kk, s => (s.skipIf (s.reg x != kk)).advance
  | .seReg x y _, s => (s.skipIf (s.reg x == s.reg y)).advance
  | .ldImm x kk, s => (s.setReg x kk).advance
  | .addImm x kk, s => (s.setReg x (s.reg x + kk)).advance
  | .ldReg x y, s => (s.setReg x (s.reg y)).advance
  | .orReg x y, s => (s.setReg x (s.reg x ||| s.reg y)).advance
  | .andReg x y, s => (s.setReg x (s.reg x &&& s.reg y)).advance
  | .xorReg x y, s => (s.setReg x (s.reg x ^^^ s.reg y)).advance
  | .addReg x y, s => (s.setResultFlag x (s.reg x + s.reg y) (carryOut (s.reg x) (s.reg y))).advance
  | .subReg x y, s => (s.setResultFlag x (s.reg x - s.reg y) (exceeds (s.reg x) (s.reg y))).advance
  | .shr x _, s => (s.setResultFlag x (s.reg x >>> 1) (lowBit (s.reg x))).advance
  | .subnReg x y, s => (s.setResultFlag x (s.reg y - s.reg x) (exceeds (s.reg y) (s.reg x))).advance
  | .shl x _, s => (s.setResultFlag x (s.reg x <<< 1) (highBit (s.reg x))).advance
  | .sneReg x y _, s => (s.skipIf (s.reg x != s.reg y)).advance
  | .ldI nnn, s => (s.setI (indexOfAddr nnn)).advance
  | .jpV0 nnn, s => s.setPc (pcOfAddr nnn + pcOfByte (s.reg 0))
  | .rnd x kk, s => (s.takeRandom.setReg x (s.randomByte &&& kk)).advance
  | .drw x y n, s => ((s.setPicture (spriteCanvas x y n s).1).setFlag (spriteCanvas x y n s).2).advance
  | .skp x, s => (s.skipIf (keyDown s.key (s.reg x).toNat)).advance
  | .sknp x, s => (s.skipIf (!keyDown s.key (s.reg x).toNat)).advance
  | .ldVxDt x, s => (s.setReg x s.dt).advance
  | .ldVxK x, s => keyWait x s
  | .ldDtVx x, s => (s.setDt (s.reg x)).advance
  | .ldStVx x, s => (s.setSt (s.reg x)).advance
  | .addI x, s => (s.setI (s.I + indexOfByte (s.reg x))).advance
  | .ldF x, s => (s.setI (indexOfByte (s.reg x) * BitVec.ofNat Config.iBits Config.glyphBytes)).advance
  | .ldB x, s => (s.setMem (s.mem.writeBytes (s.effAddr 0) (bcdDigits (s.reg x)))).advance
  | .ldMemVx x, s => (s.setMem (s.mem.writeBytes (s.effAddr 0) (s.regsUpTo x))).advance
  | .ldVxMem x, s => (s.setRegs (loadRegs s.mem (s.effAddr 0) s.v (x.val + 1))).advance

/-- The state the fault `f` leaves of `s`, or `u` when there is none. -/
def faultOr (f : Option (FaultCause × Word)) (s u : State) : State :=
  match f with
  | some (c, info) => s.enterFault c info
  | none => u

/-- The state the execute phase leaves. -/
def stateAfter (i : Instr) (s : State) : State := faultOr (faultOf i s) s (completed i s)

theorem stateAfter_of_fault {i : Instr} {s : State} {c : FaultCause} {info : Word} (h : faultOf i s = some (c, info)) :
    stateAfter i s = s.enterFault c info := by
  rw [stateAfter, h, faultOr]

theorem stateAfter_of_none {i : Instr} {s : State} (h : faultOf i s = none) : stateAfter i s = completed i s := by
  rw [stateAfter, h, faultOr]

/-! ### `exec` in this form -/

theorem ite_raises_eq (p : Prop) [Decidable p] (c : FaultCause) (info : Word) (s u : State) :
    (if p then raises c info s else .next u) = .next (faultOr (if p then some (c, info) else none) s u) := by
  split <;> rfl

theorem withRange_eq (len : Nat) (s u : State) :
    withRange (s.effAddr 0) len s (.next u) = .next (faultOr (accessFault len s) s u) := by
  rw [withRange, accessFault]
  cases outOfRange (s.effAddr 0) len <;> rfl

theorem keyWait_of_some {x : Reg} {s : State} {k : Nat} (h : lowestKeyDown s.key = some k) :
    keyWait x s = (s.setReg x (BitVec.ofNat Config.regBits k)).advance := by
  rw [keyWait, h]
  rfl

theorem keyWait_of_none {x : Reg} {s : State} (h : lowestKeyDown s.key = none) : keyWait x s = s := by
  rw [keyWait, h]

theorem execLdVxK_eq (x : Reg) (s : State) : execLdVxK x s = .next (keyWait x s) := by
  cases h : lowestKeyDown s.key with
  | some k => rw [execLdVxK_key h, keyWait_of_some h]
  | none => rw [execLdVxK_none h, keyWait_of_none h]

/-- The execute phase always answers, and with this state. -/
theorem exec_eq (i : Instr) (s : State) : exec i s = .next (stateAfter i s) := by
  cases i with
  | ret | call _ | skp _ | sknp _ => exact ite_raises_eq _ _ _ s _
  | drw _ _ _ | ldB _ | ldMemVx _ | ldVxMem _ => exact withRange_eq _ s _
  | ldVxK x => exact execLdVxK_eq x s
  | _ => rfl

theorem exec_eq_next {i : Instr} {s t : State} : exec i s = .next t ↔ stateAfter i s = t := by
  rw [exec_eq, Host.Outcome.next.injEq]

theorem exec_of_none {i : Instr} {s : State} (h : faultOf i s = none) : exec i s = .next (completed i s) :=
  exec_eq_next.2 (stateAfter_of_none h)

theorem exec_of_fault {i : Instr} {s : State} {c : FaultCause} {info : Word} (h : faultOf i s = some (c, info)) :
    exec i s = .next (s.enterFault c info) :=
  exec_eq_next.2 (stateAfter_of_fault h)

/-- The two ways an execute phase ends. -/
theorem exec_cases {i : Instr} {s t : State} (h : exec i s = .next t) :
    (∃ c info, faultOf i s = some (c, info) ∧ t = s.enterFault c info) ∨
    (faultOf i s = none ∧ t = completed i s) := by
  rw [exec_eq_next] at h
  cases hf : faultOf i s with
  | some f => exact .inl ⟨f.1, f.2, rfl, (stateAfter_of_fault hf).symm.trans h |>.symm⟩
  | none => exact .inr ⟨rfl, h.symm.trans (stateAfter_of_none hf)⟩

/-! ### When an instruction faults -/

theorem accessFault_eq_none {len : Nat} {s : State} : accessFault len s = none ↔ len = 0 ∨ s.I.toNat + len ≤ 4096 := by
  rw [accessFault, Option.map_eq_none_iff, outOfRange_eq_none]
  rfl

theorem accessFault_of_gt {len : Nat} {s : State} (h0 : len ≠ 0) (h : 4096 < s.I.toNat + len) :
    accessFault len s = some (.memoryOutOfRange, BitVec.ofNat 16 (max s.I.toNat 4096)) := by
  rw [accessFault, show outOfRange (s.effAddr 0) len = _ from outOfRange_eq_some.2 ⟨h0, h, rfl⟩]
  rfl

theorem keyFault_eq_none {x : Reg} {s : State} : keyFault x s = none ↔ (s.reg x).toNat ≤ 15 := by
  rw [keyFault, ite_eq_right_iff, keyIndexBad_iff]
  simp

theorem keyFault_of_gt {x : Reg} {s : State} (h : 15 < (s.reg x).toNat) :
    keyFault x s = some (.keyIndexOutOfRange, infoOfByte (s.reg x)) :=
  if_pos ((keyIndexBad_iff _).2 h)

/-- No instruction takes "no fault" or the cause that belongs to `load`. -/
theorem faultOf_cause {i : Instr} {s : State} {c : FaultCause} {info : Word} (h : faultOf i s = some (c, info)) :
    c ≠ .noFault ∧ c ≠ .imageTooLarge := by
  have haccess : ∀ len, accessFault len s = some (c, info) → c ≠ .noFault ∧ c ≠ .imageTooLarge := fun len h => by
    obtain ⟨a, -, ha⟩ := Option.map_eq_some_iff.1 h
    cases ha
    exact ⟨nofun, nofun⟩
  cases i with
  | ret | call _ | skp _ | sknp _ =>
    obtain ⟨-, hc⟩ := Option.ite_none_right_eq_some.1 h
    cases hc
    exact ⟨nofun, nofun⟩
  | drw _ _ _ | ldB _ | ldMemVx _ | ldVxMem _ => exact haccess _ h
  | _ => cases h

/-! ### What completing leaves alone -/

section Frame
variable (i : Instr) (s : State)

@[simp] theorem completed_key : (completed i s).key = s.key := by cases i <;> rfl
@[simp] theorem completed_cycleCount : (completed i s).cycleCount = s.cycleCount := by cases i <;> rfl
@[simp] theorem completed_currentInstruction : (completed i s).currentInstruction = s.currentInstruction := by
  cases i <;> rfl
@[simp] theorem completed_halted : (completed i s).halted = s.halted := by cases i <;> rfl
@[simp] theorem completed_faultCause : (completed i s).faultCause = s.faultCause := by cases i <;> rfl
@[simp] theorem completed_faultInfo : (completed i s).faultInfo = s.faultInfo := by cases i <;> rfl

end Frame

theorem completed_reg {i : Instr} (s : State) {k : Reg} (h : writesReg i k = false) :
    (completed i s).reg k = s.reg k := by
  cases i with
  | ldImm x _ | addImm x _ | ldReg x _ | orReg x _ | andReg x _ | xorReg x _ | rnd x _ | ldVxDt x =>
    exact State.reg_setReg_ne _ x k _ (by simpa [writesReg] using h)
  | addReg x _ | subReg x _ | shr x _ | subnReg x _ | shl x _ =>
    have hk : k ≠ x ∧ k ≠ 15 := by simpa [writesReg] using h
    exact (State.reg_setResultFlag s x _ _ k).trans (by rw [if_neg hk.2, if_neg hk.1])
  | drw _ _ _ => exact State.reg_setFlag_ne _ _ k (by simpa [writesReg] using h)
  | ldVxK x =>
    have hk : k ≠ x := by simpa [writesReg] using h
    show (keyWait x s).reg k = s.reg k
    cases hd : lowestKeyDown s.key with
    | some j => rw [keyWait_of_some hd, State.advance_reg, State.reg_setReg_ne s x k _ hk]
    | none => rw [keyWait_of_none hd]
  | ldVxMem x =>
    have hk : ¬ k.val ≤ x.val := by simpa [writesReg] using h
    exact (getElem_loadRegs s.mem _ s.v k.val k.isLt _).trans (if_neg (by omega))
  | _ => rfl

theorem completed_mem_read {i : Instr} (s : State) {a : Nat} (h : a < s.effAddr 0 ∨ s.effAddr 0 + storeLength i ≤ a) :
    (completed i s).mem.read a = s.mem.read a := by
  cases i with
  | ldB x => exact Memory.read_writeBytes_outside _ _ _ _ h
  | ldMemVx x => exact Memory.read_writeBytes_outside _ _ _ _ (by rwa [length_regsUpTo])
  | _ => rfl

theorem completed_I_changed {i : Instr} {s : State} (h : (completed i s).I ≠ s.I) :
    (∃ nnn, i = .ldI nnn) ∨ (∃ x, i = .addI x) ∨ ∃ x, i = .ldF x := by
  cases i with
  | ldI nnn => exact .inl ⟨nnn, rfl⟩
  | addI x => exact .inr (.inl ⟨x, rfl⟩)
  | ldF x => exact .inr (.inr ⟨x, rfl⟩)
  | _ => exact absurd rfl h

theorem completed_stack_changed {i : Instr} {s : State} (h : (completed i s).stack ≠ s.stack) :
    ∃ nnn, i = .call nnn := by
  cases i with
  | call nnn => exact ⟨nnn, rfl⟩
  | _ => exact absurd rfl h

theorem completed_sp_changed {i : Instr} {s : State} (h : (completed i s).sp ≠ s.sp) :
    i = .ret ∨ ∃ nnn, i = .call nnn := by
  cases i with
  | ret => exact .inl rfl
  | call nnn => exact .inr ⟨nnn, rfl⟩
  | _ => exact absurd rfl h

theorem completed_dt_changed {i : Instr} {s : State} (h : (completed i s).dt ≠ s.dt) : ∃ x, i = .ldDtVx x := by
  cases i with
  | ldDtVx x => exact ⟨x, rfl⟩
  | _ => exact absurd rfl h

theorem completed_st_changed {i : Instr} {s : State} (h : (completed i s).st ≠ s.st) : ∃ x, i = .ldStVx x := by
  cases i with
  | ldStVx x => exact ⟨x, rfl⟩
  | _ => exact absurd rfl h

theorem completed_screen_changed {i : Instr} {s : State}
    (h : ((completed i s).fb, (completed i s).dirty) ≠ (s.fb, s.dirty)) : i = .cls ∨ ∃ x y n, i = .drw x y n := by
  cases i with
  | cls => exact .inl rfl
  | drw x y n => exact .inr ⟨x, y, n, rfl⟩
  | _ => exact absurd rfl h

theorem completed_random_changed {i : Instr} {s : State}
    (h : ((completed i s).rndInjected, (completed i s).rndDrawn) ≠ (s.rndInjected, s.rndDrawn)) :
    ∃ x kk, i = .rnd x kk := by
  cases i with
  | rnd x kk => exact ⟨x, kk, rfl⟩
  | _ => exact absurd rfl h

/-! ### Where completing leaves `pc` (R126, R128) -/

theorem completed_pc_of_advances {i : Instr} (s : State) (h : pcEffect i = .advances) :
    (completed i s).pc = s.pc + 2 := by
  cases i with
  | seImm _ _ | sneImm _ _ | seReg _ _ _ | sneReg _ _ _ | skp _ | sknp _ => cases h
  | ldVxK _ | ret | jp _ | call _ | jpV0 _ => cases h
  | _ => rfl

theorem advance_skipIf_pc (s : State) (c : Bool) :
    (s.skipIf c).advance.pc = s.pc + 2 ∨ (s.skipIf c).advance.pc = s.pc + 4 := by
  cases c with
  | false => exact .inl rfl
  | true => exact .inr (BitVec.add_assoc s.pc 2#16 2#16)

theorem completed_pc_of_maySkip {i : Instr} (s : State) (h : pcEffect i = .maySkip) :
    (completed i s).pc = s.pc + 2 ∨ (completed i s).pc = s.pc + 4 := by
  cases i with
  | seImm _ _ | sneImm _ _ | seReg _ _ _ | sneReg _ _ _ | skp _ | sknp _ => exact advance_skipIf_pc s _
  | _ => cases h

theorem completed_pc_of_mayHold {i : Instr} (s : State) (h : pcEffect i = .mayHold) :
    (completed i s).pc = s.pc ∨ (completed i s).pc = s.pc + 2 := by
  cases i with
  | ldVxK x =>
    show (keyWait x s).pc = s.pc ∨ (keyWait x s).pc = s.pc + 2
    cases hd : lowestKeyDown s.key with
    | some k => exact .inr (by rw [keyWait_of_some hd]; rfl)
    | none => exact .inl (by rw [keyWait_of_none hd])
  | _ => cases h

/-! ### What the execute phase changes at all -/

/-- A field that taking a fault leaves alone is changed only where completing changes it. -/
theorem exec_changed {α : Type} {f : State → α} (hf : ∀ (s : State) c info, f (s.enterFault c info) = f s)
    {i : Instr} {s t : State} (h : exec i s = .next t) (hne : f t ≠ f s) : f (completed i s) ≠ f s := by
  rcases exec_cases h with ⟨c, info, -, rfl⟩ | ⟨-, rfl⟩
  · exact absurd (hf s c info) hne
  · exact hne

/-- A field that neither taking a fault nor completing changes. -/
theorem exec_keeps {α : Type} {f : State → α} (hf : ∀ (s : State) c info, f (s.enterFault c info) = f s)
    {i : Instr} {s t : State} (hdone : f (completed i s) = f s) (h : exec i s = .next t) : f t = f s :=
  Classical.byContradiction fun hne => exec_changed hf h hne hdone

theorem exec_cycleCount {i : Instr} {s t : State} (h : exec i s = .next t) : t.cycleCount = s.cycleCount :=
  exec_keeps (fun _ _ _ => rfl) (completed_cycleCount i s) h

theorem exec_currentInstruction {i : Instr} {s t : State} (h : exec i s = .next t) :
    t.currentInstruction = s.currentInstruction :=
  exec_keeps (fun _ _ _ => rfl) (completed_currentInstruction i s) h

theorem exec_key {i : Instr} {s t : State} (h : exec i s = .next t) : t.key = s.key :=
  exec_keeps (fun _ _ _ => rfl) (completed_key i s) h

/-- From a running state, the execute phase halts the machine exactly by taking a fault. -/
theorem exec_halted_iff {i : Instr} {s t : State} (hrun : s.halted = false) (h : exec i s = .next t) :
    t.halted = true ↔ faultOf i s ≠ none := by
  rcases exec_cases h with ⟨c, info, hf, rfl⟩ | ⟨hf, rfl⟩
  · simp [hf]
  · simp [hf, hrun]

theorem exec_not_halted {i : Instr} {s t : State} (hrun : t.halted = false) (h : exec i s = .next t) :
    t = completed i s := by
  rcases exec_cases h with ⟨c, info, -, rfl⟩ | ⟨-, rfl⟩
  · cases hrun
  · rfl

/-- Settles O56: taking a fault writes the three fault fields only, so each clause is one about completing. -/
theorem instructionsWriteOnlyWhatTheMatrixSays : Obligations.InstructionsWriteOnlyWhatTheMatrixSays := by
  intro i s t h
  refine ⟨fun k hk => ?_, fun a ha => ?_, fun hne => ?_, fun hne => ?_, fun hne => ?_, fun hne => ?_, fun hne => ?_,
    fun hne => ?_, fun hne => ?_, exec_key h, exec_cycleCount h, exec_currentInstruction h, fun _ hrun => ?_⟩
  · exact exec_keeps (f := fun s => s.reg k) (fun _ _ _ => rfl) (completed_reg s hk) h
  · exact exec_keeps (f := fun s => s.mem.read a) (fun _ _ _ => rfl) (completed_mem_read s ha) h
  · exact completed_I_changed (exec_changed (f := State.I) (fun _ _ _ => rfl) h hne)
  · exact completed_stack_changed (exec_changed (f := State.stack) (fun _ _ _ => rfl) h hne)
  · exact completed_sp_changed (exec_changed (f := State.sp) (fun _ _ _ => rfl) h hne)
  · exact completed_dt_changed (exec_changed (f := State.dt) (fun _ _ _ => rfl) h hne)
  · exact completed_st_changed (exec_changed (f := State.st) (fun _ _ _ => rfl) h hne)
  · refine completed_screen_changed (exec_changed (f := fun s => (s.fb, s.dirty)) (fun _ _ _ => rfl) h fun e => ?_)
    rw [Prod.mk.injEq] at e
    exact hne.elim (absurd e.1) (absurd e.2)
  · refine completed_random_changed (exec_changed (f := fun s => (s.rndInjected, s.rndDrawn)) (fun _ _ _ => rfl) h
      fun e => ?_)
    rw [Prod.mk.injEq] at e
    exact hne.elim (absurd e.1) (absurd e.2)
  · cases exec_not_halted hrun h
    exact ⟨completed_pc_of_advances s, completed_pc_of_maySkip s, completed_pc_of_mayHold s⟩

/-- Settles O57: a machine that runs halts in the execute phase exactly when `faultOf` names a fault, and each
instruction that can fault names its own condition. -/
theorem onlyTheListedInstructionsFault : Obligations.OnlyTheListedInstructionsFault := by
  intro i s t hrun h
  rw [exec_halted_iff hrun h]
  have haccess : ∀ len, accessFault len s ≠ none ↔ 0 < len ∧ 4096 < s.I.toNat + len := fun len => by
    rw [ne_eq, accessFault_eq_none]
    omega
  have hkey : ∀ x, keyFault x s ≠ none ↔ 15 < (s.reg x).toNat := fun x => by
    rw [ne_eq, keyFault_eq_none]
    omega
  have hsp0 : s.sp.val = 0 ↔ s.sp = 0 := (Fin.ext_iff (b := 0)).symm
  have hsp15 : s.sp.val = 15 ↔ s.sp = 15 := (Fin.ext_iff (b := 15)).symm
  cases i with
  | ret => simp [faultOf, hsp0]
  | call nnn => simp [faultOf, hsp15]
  | drw x y n =>
    have hdrw : (∃ x' y' n', Instr.drw x y n = .drw x' y' n' ∧ 0 < n' ∧ 4096 < s.I.toNat + n') ↔
        0 < n ∧ 4096 < s.I.toNat + n :=
      ⟨fun ⟨_, _, _, e, h⟩ => by cases e; exact h, fun h => ⟨x, y, n, rfl, h⟩⟩
    simp only [faultOf, hdrw, haccess, reduceCtorEq, false_and, exists_false, or_self, false_or, or_false]
  | ldB x => simpa [faultOf] using haccess 3
  | ldMemVx x | ldVxMem x => simpa [faultOf] using haccess (x.val + 1)
  | skp x | sknp x => simpa [faultOf] using hkey x
  | _ => simp [faultOf]

/-! ### Non-interference -/

/-- An instruction that does not read what `u` changes does the same before and after `u`. -/
theorem exec_update {i : Instr} {s t : State} (u : State → State) (hfault : faultOf i (u s) = faultOf i s)
    (hdone : completed i (u s) = u (completed i s))
    (henter : ∀ c info, (u s).enterFault c info = u (s.enterFault c info)) (h : exec i s = .next t) :
    exec i (u s) = .next (u t) := by
  rcases exec_cases h with ⟨c, info, hf, rfl⟩ | ⟨hf, rfl⟩
  · rw [exec_of_fault (hfault.trans hf), henter]
  · rw [exec_of_none (hfault.trans hf), hdone]

theorem exec_update_key {i : Instr} {s t : State} (k : Keypad) (hi : ∀ x, i ≠ .skp x ∧ i ≠ .sknp x ∧ i ≠ .ldVxK x)
    (h : exec i s = .next t) : exec i { s with key := k } = .next { t with key := k } := by
  refine exec_update (fun s => { s with key := k }) (by cases i <;> rfl) ?_ (fun _ _ => rfl) h
  cases i with
  | skp x => exact absurd rfl (hi x).1
  | sknp x => exact absurd rfl (hi x).2.1
  | ldVxK x => exact absurd rfl (hi x).2.2
  | _ => rfl

theorem exec_update_random {i : Instr} {s t : State} (q : List Byte) (n : Nat) (hi : ∀ x kk, i ≠ .rnd x kk)
    (h : exec i s = .next t) :
    exec i { s with rndInjected := q, rndDrawn := n } = .next { t with rndInjected := q, rndDrawn := n } := by
  refine exec_update (fun s => { s with rndInjected := q, rndDrawn := n }) (by cases i <;> rfl) ?_ (fun _ _ => rfl) h
  cases i with
  | rnd x kk => exact absurd rfl (hi x kk)
  | _ => rfl

theorem exec_update_fb {i : Instr} {s t : State} (f : Framebuffer) (hcls : i ≠ .cls) (hdrw : ∀ x y n, i ≠ .drw x y n)
    (h : exec i s = .next t) : exec i { s with fb := f } = .next { t with fb := f } := by
  refine exec_update (fun s => { s with fb := f }) (by cases i <;> rfl) ?_ (fun _ _ => rfl) h
  cases i with
  | cls => exact absurd rfl hcls
  | drw x y n => exact absurd rfl (hdrw x y n)
  | _ => rfl

/-- The state with `k` more ticks counted. -/
def State.countMore (k : Nat) (s : State) : State := { s with cycleCount := s.cycleCount + k }

theorem exec_countMore {i : Instr} {s t : State} (k : Nat) (h : exec i s = .next t) :
    exec i (s.countMore k) = .next (t.countMore k) :=
  exec_update (State.countMore k) (by cases i <;> rfl) (by cases i <;> rfl) (fun _ _ => rfl) h

/-- The sound timer goes through the execute phase unread: `Fx18` puts a register's value in its place, and every other
instruction leaves it. -/
theorem exec_update_st {i : Instr} {s t : State} (b : Byte) (h : exec i s = .next t) :
    ∃ b' : Byte, exec i { s with st := b } = .next { t with st := b' } := by
  by_cases hi : ∃ x, i = .ldStVx x
  · obtain ⟨x, rfl⟩ := hi
    cases h
    exact ⟨s.reg x, rfl⟩
  · refine ⟨b, exec_update (fun s => { s with st := b }) (by cases i <;> rfl) ?_ (fun _ _ => rfl) h⟩
    cases i with
    | ldStVx x => exact absurd ⟨x, rfl⟩ hi
    | _ => rfl

/-- Settles O59: neither input is read by `faultOf` or by `completed` of another instruction. -/
theorem inputsReachOnlyTheirInstructions : Obligations.InputsReachOnlyTheirInstructions :=
  ⟨fun _ _ _ k hi h => exec_update_key k hi h, fun _ _ _ q n hi h => exec_update_random q n hi h⟩

end Sys2Proof.Machine
end

section
/-! SUPPORT and PROOFS. The invariant (spec/10_state.md sections 3 and 4): taking a fault keeps it, completing an
instruction fetched within memory keeps it, so every tick does, and so does every other host operation. -/

namespace Sys2Proof.Machine

/-! ### Bounds on the addresses an instruction leaves -/

theorem toNat_add_ofNat_of_le {w : Word} {k : Nat} (h : w.toNat + k < 65536) :
    (w + BitVec.ofNat 16 k).toNat = w.toNat + k := by
  rw [BitVec.toNat_add, BitVec.toNat_ofNat]
  omega

theorem toNat_jumpTarget (nnn : Addr12) (b : Byte) : (pcOfAddr nnn + pcOfByte b).toNat = nnn.toNat + b.toNat := by
  have hnnn := nnn.isLt
  have hb := byte_lt b
  rw [BitVec.toNat_add, toNat_pcOfAddr, toNat_pcOfByte]
  exact Nat.mod_eq_of_lt (show nnn.toNat + b.toNat < 65536 by omega)

/-- The highest target is that of `Bnnn`: 4095 + 255. -/
theorem completed_pc_le (i : Instr) {s : State} (hpc : s.pc.toNat ≤ 4094)
    (hstack : ∀ k : Fin Config.stackSlots, s.stack[k.val].toNat ≤ 4094) : (completed i s).pc.toNat ≤ 4350 := by
  have hplus : ∀ {w : Word} (k : Nat), w.toNat ≤ 4094 → k ≤ 4 → (w + BitVec.ofNat 16 k).toNat ≤ 4350 := by
    intro w k hw hk
    rw [toNat_add_ofNat_of_le (by omega)]
    omega
  have htarget : ∀ nnn : Addr12, (pcOfAddr nnn).toNat ≤ 4350 := fun nnn => by
    have := nnn.isLt
    rw [toNat_pcOfAddr]
    omega
  cases he : pcEffect i with
  | advances => rw [completed_pc_of_advances s he]; exact hplus 2 hpc (by decide)
  | maySkip =>
    rcases completed_pc_of_maySkip s he with h | h <;> rw [h]
    · exact hplus 2 hpc (by decide)
    · exact hplus 4 hpc (by decide)
  | mayHold =>
    rcases completed_pc_of_mayHold s he with h | h <;> rw [h]
    · omega
    · exact hplus 2 hpc (by decide)
  | sets =>
    cases i with
    | ret => exact hplus 2 (hstack s.sp) (by decide)
    | jp nnn | call nnn => exact htarget nnn
    | jpV0 nnn =>
      have hnnn := nnn.isLt
      have hb := byte_lt (s.reg 0)
      show (pcOfAddr nnn + pcOfByte (s.reg 0)).toNat ≤ 4350
      rw [toNat_jumpTarget]
      omega
    | _ => cases he

theorem completed_mem_wf (i : Instr) {s : State} (h : s.mem.wf = true) : (completed i s).mem.wf = true := by
  cases i with
  | ldB x => exact Memory.wf_writeBytes _ h _
  | ldMemVx x => exact Memory.wf_writeBytes _ h _
  | _ => exact h

/-- A slot after a push: the pushed address in the slot `sp` now names, and what the others held. -/
theorem getElem_stack_pushReturn (s : State) (w : Word) (k : Fin Config.stackSlots) :
    (s.pushReturn w).stack[k.val] = if k = s.sp + 1 then w else s.stack[k.val] := by
  rw [State.pushReturn_stack, Vector.getElem_set]
  simp only [Fin.ext_iff, eq_comm]

theorem completed_stack_le (i : Instr) {s : State} (hpc : s.pc.toNat ≤ 4094)
    (hstack : ∀ k : Fin Config.stackSlots, s.stack[k.val].toNat ≤ 4094) (k : Fin Config.stackSlots) :
    (completed i s).stack[k.val].toNat ≤ 4094 := by
  cases i with
  | call nnn =>
    show (s.pushReturn s.pc).stack[k.val].toNat ≤ 4094
    rw [getElem_stack_pushReturn]
    split
    · exact hpc
    · exact hstack k
  | _ => exact hstack k

/-- A Call that does not overflow names a slot other than 0. -/
theorem completed_slotZero {i : Instr} {s : State} (hf : faultOf i s = none) (h : s.stack[0] = 0) :
    (completed i s).stack[0] = 0 := by
  cases i with
  | call nnn =>
    have hsp : s.sp.val ≠ 15 := fun e => by simp [faultOf, e] at hf
    have hne : (0 : Fin Config.stackSlots) ≠ s.sp + 1 := fun e => by
      have := congrArg Fin.val e
      rw [val_sp_succ hsp] at this
      cases this
    exact (getElem_stack_pushReturn s s.pc 0).trans ((if_neg hne).trans h)
  | _ => exact h

/-! ### What keeps the invariant -/

theorem State.Inv.enterFault {s : State} (hs : s.Inv) {c : FaultCause} (hc : c ≠ .noFault ∧ c ≠ .imageTooLarge)
    (info : Word) : (s.enterFault c info).Inv :=
  ⟨hs.memory, hs.pcBound, hs.stackBound, hs.slotZero, nofun, fun _ => hc⟩

theorem State.Inv.beginTick {s : State} (hs : s.Inv) : s.beginTick.Inv :=
  ⟨hs.memory, hs.pcBound, hs.stackBound, hs.slotZero, hs.noFault, hs.fault⟩

theorem State.Inv.latch {s : State} (hs : s.Inv) (w : Word) : (s.latch w).Inv :=
  ⟨hs.memory, hs.pcBound, hs.stackBound, hs.slotZero, hs.noFault, hs.fault⟩

theorem State.Inv.completed {s : State} (hs : s.Inv) {i : Instr} (hpc : s.pc.toNat ≤ 4094) (hf : faultOf i s = none) :
    (completed i s).Inv where
  memory := completed_mem_wf i hs.memory
  pcBound := completed_pc_le i hpc hs.stackBound
  stackBound := completed_stack_le i hpc hs.stackBound
  slotZero := completed_slotZero hf hs.slotZero
  noFault := by simpa using hs.noFault
  fault := by simpa using hs.fault

theorem State.Inv.exec {s t : State} (hs : s.Inv) {i : Instr} (hpc : s.pc.toNat ≤ 4094) (h : exec i s = .next t) :
    t.Inv := by
  rcases exec_cases h with ⟨c, info, hf, rfl⟩ | ⟨hf, rfl⟩
  · exact hs.enterFault (faultOf_cause hf) info
  · exact hs.completed hpc hf

theorem State.Inv.step {s t : State} (hs : s.Inv) (h : step s = .next t) : t.Inv := by
  rcases tick_cases h with ⟨-, rfl⟩ | ⟨-, -, rfl⟩ | ⟨-, -, -, rfl⟩ | ⟨-, hpc, i, -, hi⟩
  · exact hs
  · exact hs.beginTick.enterFault (by decide) _
  · exact (hs.beginTick.latch _).enterFault (by decide) _
  · exact (hs.beginTick.latch _).exec (show s.pc.toNat ≤ 4094 by omega) hi

/-- Settles O20: each way a tick ends keeps the invariant. -/
theorem everyStepKeepsTheInvariant : Obligations.EveryStepKeepsTheInvariant := by
  intro s t hs h
  exact hs.step h

/-- Settles O19: each clause is a fact about the one reset state. -/
theorem invariantHoldsAtReset : Obligations.InvariantHoldsAtReset :=
  ⟨by decide, by decide, by decide, by decide, by decide, by decide⟩

/-! ### Sessions -/

/-- A `load` that answers a next state came before the first tick, and wrote memory. -/
theorem hostLoad_next {image : List Byte} {s t : State} (h : hostLoad image s = .next t) :
    s.ticked = false ∧ t = s.setMem (s.mem.writeBytes Config.loadOffset image) := by
  unfold hostLoad at h
  split at h
  · cases h
  · next hticked =>
    split at h
    · cases h; exact ⟨Bool.eq_false_iff.2 hticked, rfl⟩
    · cases h

theorem State.Inv.hostDo {s t : State} (hs : s.Inv) {op : HostOp} (h : hostDo op s = .next t) : t.Inv := by
  have hreset : State.reset.Inv := invariantHoldsAtReset
  cases op with
  | reset =>
    cases h
    exact ⟨hreset.memory, hreset.pcBound, hreset.stackBound, hreset.slotZero, hreset.noFault, hreset.fault⟩
  | load image =>
    obtain ⟨-, rfl⟩ := hostLoad_next h
    exact ⟨Memory.wf_writeBytes image hs.memory _, hs.pcBound, hs.stackBound, hs.slotZero, hs.noFault, hs.fault⟩
  | tick => exact hs.step h
  | writeKeys _ | supplyRandom _ | clearDirty =>
    cases h
    exact ⟨hs.memory, hs.pcBound, hs.stackBound, hs.slotZero, hs.noFault, hs.fault⟩

/-- What every operation of a session keeps, the session keeps. -/
theorem hostRun_keeps {P : State → Prop} : ∀ {ops : List HostOp} {s t : State},
    (∀ op ∈ ops, ∀ s t : State, P s → hostDo op s = .next t → P t) → P s → hostRun ops s = .next t → P t
  | [], _, _, _, hs, h => by cases h; exact hs
  | op :: ops, s, t, hdo, hs, h => by
    rw [hostRun] at h
    split at h
    · next s' hop =>
      exact hostRun_keeps (fun op hmem => hdo op (List.mem_cons_of_mem _ hmem)) (hdo op List.mem_cons_self _ _ hs hop) h
    · cases h
    · cases h

/-- Settles O21: every host operation keeps the invariant, so by induction a session does. -/
theorem everySessionKeepsTheInvariant : Obligations.EverySessionKeepsTheInvariant := by
  intro ops s t hs h
  exact hostRun_keeps (fun _ _ _ _ hs => hs.hostDo) hs h

end Sys2Proof.Machine
end

section
/-! SUPPORT and PROOFS. The tick (spec/40_tick_cycle.md): what precedes the execute phase as one state, the ways a tick
of a running machine ends, and what follows about the count, the timers, the trace word, faults and the halted
machine. -/

namespace Sys2Proof.Machine

/-! ### The state in which the execute phase begins -/

/-- The state after phases 1 to 3: counted, the timers run, and the word latched when it can be fetched (R120). -/
def State.afterFetch (s : State) : State :=
  if s.pc.toNat + 1 < 4096 then s.beginTick.latch s.wordAtPc else s.beginTick

theorem afterFetch_inRange {s : State} (hpc : s.pc.toNat + 1 < 4096) : s.afterFetch = s.beginTick.latch s.wordAtPc :=
  if_pos hpc

theorem afterFetch_outOfRange {s : State} (hpc : 4096 ≤ s.pc.toNat + 1) : s.afterFetch = s.beginTick :=
  if_neg (by omega)

theorem afterFetch_eq (s : State) :
    s.afterFetch = { s with
      cycleCount := s.cycleCount + 1
      dt := if (s.cycleCount + 1) % 9 = 0 then BitVec.ofNat 8 (s.dt.toNat - 1) else s.dt
      st := if (s.cycleCount + 1) % 9 = 0 then BitVec.ofNat 8 (s.st.toNat - 1) else s.st
      currentInstruction := if s.pc.toNat + 1 < 4096 then s.wordAtPc else s.currentInstruction } := by
  rw [State.afterFetch, beginTick_eq]
  split <;> rfl

section Fields
variable (s : State)

@[simp] theorem afterFetch_mem : s.afterFetch.mem = s.mem := by rw [afterFetch_eq]
@[simp] theorem afterFetch_v : s.afterFetch.v = s.v := by rw [afterFetch_eq]
@[simp] theorem afterFetch_I : s.afterFetch.I = s.I := by rw [afterFetch_eq]
@[simp] theorem afterFetch_pc : s.afterFetch.pc = s.pc := by rw [afterFetch_eq]
@[simp] theorem afterFetch_key : s.afterFetch.key = s.key := by rw [afterFetch_eq]
@[simp] theorem afterFetch_halted : s.afterFetch.halted = s.halted := by rw [afterFetch_eq]
@[simp] theorem afterFetch_cycleCount : s.afterFetch.cycleCount = s.cycleCount + 1 := by rw [afterFetch_eq]
theorem afterFetch_currentInstruction : s.afterFetch.currentInstruction =
    if s.pc.toNat + 1 < 4096 then s.wordAtPc else s.currentInstruction := by rw [afterFetch_eq]

@[simp] theorem afterFetch_reg (x : Reg) : s.afterFetch.reg x = s.reg x := by rw [State.reg, afterFetch_v, State.reg]

end Fields

/-- A timer after the cadence, as a number. -/
theorem toNat_cadence (c : Nat) (b : Byte) :
    (if c % 9 = 0 then BitVec.ofNat 8 (b.toNat - 1) else b).toNat = if c % 9 = 0 then b.toNat - 1 else b.toNat := by
  have := byte_lt b
  split
  · exact Nat.mod_eq_of_lt (show b.toNat - 1 < 256 by omega)
  · rfl

theorem toNat_afterFetch_dt (s : State) :
    s.afterFetch.dt.toNat = if (s.cycleCount + 1) % 9 = 0 then s.dt.toNat - 1 else s.dt.toNat := by
  rw [afterFetch_eq, ← toNat_cadence]

theorem toNat_afterFetch_st (s : State) :
    s.afterFetch.st.toNat = if (s.cycleCount + 1) % 9 = 0 then s.st.toNat - 1 else s.st.toNat := by
  rw [afterFetch_eq, ← toNat_cadence]

/-! ### How a tick ends -/

theorem step_halted {s : State} (h : s.halted = true) : step s = .next s := tick_halted h

/-- A tick that fetches an instruction is the execution of that instruction. -/
theorem step_instr {s : State} {i : Instr} (hrun : s.halted = false) (hpc : s.pc.toNat + 1 < 4096)
    (hd : decodeWord s.wordAtPc = some i) : step s = exec i s.afterFetch := by
  rw [afterFetch_inRange hpc]
  exact (tick_runs hrun hpc).trans (runWord_instr hd _)

theorem step_unknown {s : State} (hrun : s.halted = false) (hpc : s.pc.toNat + 1 < 4096)
    (hd : decodeWord s.wordAtPc = none) : step s = .next (s.afterFetch.enterFault .unknownOpcode s.wordAtPc) := by
  rw [afterFetch_inRange hpc]
  exact (tick_runs hrun hpc).trans (runWord_unknown hd _)

theorem step_outOfRange {s : State} (hrun : s.halted = false) (hpc : 4096 ≤ s.pc.toNat + 1) :
    step s = .next (s.afterFetch.enterFault .memoryOutOfRange (BitVec.ofNat 16 (max s.pc.toNat 4096))) := by
  rw [afterFetch_outOfRange hpc]
  exact tick_outOfRange hrun hpc

/-- A tick of a running machine takes a fault or completes the instruction fetched; either way phases 1 to 3 stand. -/
theorem step_running_cases {s t : State} (hrun : s.halted = false) (h : step s = .next t) :
    (∃ c info, (c ≠ .noFault ∧ c ≠ .imageTooLarge) ∧ t = s.afterFetch.enterFault c info) ∨
    (s.pc.toNat + 1 < 4096 ∧ ∃ i, decodeWord s.wordAtPc = some i ∧ t = completed i s.afterFetch) := by
  by_cases hpc : s.pc.toNat + 1 < 4096
  · cases hd : decodeWord s.wordAtPc with
    | none =>
      rw [step_unknown hrun hpc hd] at h
      cases h
      exact .inl ⟨_, _, by decide, rfl⟩
    | some i =>
      rw [step_instr hrun hpc hd] at h
      rcases exec_cases h with ⟨c, info, hf, ht⟩ | ⟨-, ht⟩
      · exact .inl ⟨c, info, faultOf_cause hf, ht⟩
      · exact .inr ⟨hpc, i, rfl, ht⟩
  · rw [step_outOfRange hrun (by omega)] at h
    cases h
    exact .inl ⟨_, _, by decide, rfl⟩

theorem step_next (s : State) : ∃ t : State, step s = .next t := by
  cases hrun : s.halted with
  | true => exact ⟨s, step_halted hrun⟩
  | false =>
    by_cases hpc : s.pc.toNat + 1 < 4096
    · cases hd : decodeWord s.wordAtPc with
      | none => exact ⟨_, step_unknown hrun hpc hd⟩
      | some i => exact ⟨_, (step_instr hrun hpc hd).trans (exec_eq i _)⟩
    · exact ⟨_, step_outOfRange hrun (by omega)⟩

/-- Settles O12: each way through the tick answers a state. -/
theorem stepAlwaysAnswersNext : Obligations.StepAlwaysAnswersNext := by
  intro s
  exact step_next s

theorem wordAtPc_of_toNat {s : State} {w : Word}
    (hw : w.toNat = 256 * (s.mem.read s.pc.toNat).toNat + (s.mem.read (s.pc.toNat + 1)).toNat) : s.wordAtPc = w :=
  BitVec.eq_of_toNat_eq ((toNat_wordAtPc s).trans hw.symm)

/-- Settles O8: the state in which `exec` begins, written out. -/
theorem stepRunsTheDecodedInstruction : Obligations.StepRunsTheDecodedInstruction := by
  intro s w i hrun hpc hw hd
  cases wordAtPc_of_toNat hw
  rw [step_instr hrun hpc hd, afterFetch_eq, if_pos hpc]

/-- Settles O9: the fault is taken in the state in which `exec` would have begun. -/
theorem stepOnUnknownWordHalts : Obligations.StepOnUnknownWordHalts := by
  intro s w hrun hpc hw hd
  cases wordAtPc_of_toNat hw
  rw [step_unknown hrun hpc hd, afterFetch_eq, if_pos hpc]
  rfl

/-- Settles O10: nothing is latched when the word cannot be fetched. -/
theorem stepWithPcOutOfRangeHalts : Obligations.StepWithPcOutOfRangeHalts := by
  intro s hrun hpc
  rw [step_outOfRange hrun hpc, afterFetch_eq, if_neg (show ¬ s.pc.toNat + 1 < 4096 by omega)]
  rfl

/-- Settles O58: completing leaves a running machine running, so a tick that halts has taken a fault. -/
theorem faultsArePrecise : Obligations.FaultsArePrecise := by
  intro s t hrun h ht
  rcases step_running_cases hrun h with ⟨c, info, hc, rfl⟩ | ⟨-, i, -, rfl⟩
  · refine ⟨?_, hc⟩
    rw [afterFetch_eq]
    rfl
  · rw [completed_halted, afterFetch_halted, hrun] at ht
    cases ht

/-! ### The count, the timers, the trace word -/

theorem step_cycleCount {s t : State} (hrun : s.halted = false) (h : step s = .next t) :
    t.cycleCount = s.cycleCount + 1 := by
  rcases step_running_cases hrun h with ⟨c, info, -, rfl⟩ | ⟨-, i, -, rfl⟩
  · rw [State.enterFault_cycleCount, afterFetch_cycleCount]
  · rw [completed_cycleCount, afterFetch_cycleCount]

theorem step_currentInstruction {s t : State} (hrun : s.halted = false) (h : step s = .next t) :
    t.currentInstruction = if s.pc.toNat + 1 < 4096 then s.wordAtPc else s.currentInstruction := by
  rcases step_running_cases hrun h with ⟨c, info, -, rfl⟩ | ⟨-, i, -, rfl⟩
  · rw [State.enterFault_currentInstruction, afterFetch_currentInstruction]
  · rw [completed_currentInstruction, afterFetch_currentInstruction]

/-- A tick at no `Fx15` leaves the delay timer as the cadence did. -/
theorem step_dt {s t : State} (hrun : s.halted = false) (h : step s = .next t)
    (hi : s.pc.toNat + 1 < 4096 → ∀ x, decodeWord s.wordAtPc ≠ some (.ldDtVx x)) : t.dt = s.afterFetch.dt := by
  rcases step_running_cases hrun h with ⟨c, info, -, rfl⟩ | ⟨hpc, i, hd, rfl⟩
  · rfl
  · refine Classical.byContradiction fun hne => ?_
    obtain ⟨x, rfl⟩ := completed_dt_changed hne
    exact hi hpc x hd

/-- A tick at no `Fx18` leaves the sound timer as the cadence did. -/
theorem step_st {s t : State} (hrun : s.halted = false) (h : step s = .next t)
    (hi : s.pc.toNat + 1 < 4096 → ∀ x, decodeWord s.wordAtPc ≠ some (.ldStVx x)) : t.st = s.afterFetch.st := by
  rcases step_running_cases hrun h with ⟨c, info, -, rfl⟩ | ⟨hpc, i, hd, rfl⟩
  · rfl
  · refine Classical.byContradiction fun hne => ?_
    obtain ⟨x, rfl⟩ := completed_st_changed hne
    exact hi hpc x hd

theorem exec_ldDtVx (x : Reg) (s : State) : exec (.ldDtVx x) s = .next (s.setDt (s.reg x)).advance := rfl

theorem exec_ldStVx (x : Reg) (s : State) : exec (.ldStVx x) s = .next (s.setSt (s.reg x)).advance := rfl

theorem step_ldDtVx {s t : State} {x : Reg} (hrun : s.halted = false) (hpc : s.pc.toNat + 1 < 4096)
    (hd : decodeWord s.wordAtPc = some (.ldDtVx x)) (h : step s = .next t) : t.dt = s.reg x := by
  rw [step_instr hrun hpc hd, exec_ldDtVx] at h
  cases h
  exact afterFetch_reg s x

theorem step_ldStVx {s t : State} {x : Reg} (hrun : s.halted = false) (hpc : s.pc.toNat + 1 < 4096)
    (hd : decodeWord s.wordAtPc = some (.ldStVx x)) (h : step s = .next t) : t.st = s.reg x := by
  rw [step_instr hrun hpc hd, exec_ldStVx] at h
  cases h
  exact afterFetch_reg s x

/-- Settles O13: no instruction but the two that set a timer touches one after the cadence. -/
theorem timersCountDownEveryNinthTick : Obligations.TimersCountDownEveryNinthTick := by
  intro s hrun
  obtain ⟨t, h⟩ := step_next s
  refine ⟨t, h, step_cycleCount hrun h, fun hi => ?_, fun hi => ?_, fun x hpc hd => step_ldDtVx hrun hpc hd h,
    fun x hpc hd => step_ldStVx hrun hpc hd h⟩
  · rw [step_dt hrun h hi, toNat_afterFetch_dt]
  · rw [step_st hrun h hi, toNat_afterFetch_st]

/-- Settles O55: the timer set is the last thing the tick writes. -/
theorem timerSetsCopyTheRegister : Obligations.TimerSetsCopyTheRegister := by
  intro x s
  refine ⟨exec_ldDtVx x s, exec_ldStVx x s, decide_eq_true_iff, fun t hrun hpc h => ⟨fun hd => ?_, fun hd => ?_⟩⟩
  · exact step_ldDtVx hrun hpc hd h
  · exact step_ldStVx hrun hpc hd h

theorem exec_ldVxDt (x : Reg) (s : State) : exec (.ldVxDt x) s = .next (s.setReg x s.dt).advance := rfl

/-- Settles O54: the timer read is that of the state after the cadence, and the instruction does not write it. -/
theorem delayTimerIsReadAfterTheCadence : Obligations.DelayTimerIsReadAfterTheCadence := by
  intro x s
  refine ⟨⟨_, exec_ldVxDt x s, State.reg_setReg_same s x _, fun k hk => State.reg_setReg_ne s x k _ hk,
    State.advance_setReg s x _⟩, fun t hrun hpc hd h => ?_, fun i t b h => exec_update_st b h⟩
  rw [step_instr hrun hpc hd, exec_ldVxDt] at h
  cases h
  have hx : (s.afterFetch.setReg x s.afterFetch.dt).advance.reg x = s.afterFetch.dt := State.reg_setReg_same _ x _
  rw [hx]
  exact ⟨toNat_afterFetch_dt s, rfl⟩

/-! ### Only the remainder of the count is read -/

theorem beginTick_countMore_nines (k : Nat) (s : State) :
    (s.countMore (9 * k)).beginTick = s.beginTick.countMore (9 * k) := by
  have hcount : s.cycleCount + 9 * k + 1 = s.cycleCount + 1 + 9 * k := by omega
  have hrem : (s.cycleCount + 1 + 9 * k) % 9 = (s.cycleCount + 1) % 9 := by omega
  simp only [beginTick_eq, State.countMore, hcount, hrem]

/-- The cadence reads the remainder only, and nothing after it reads the count. -/
theorem step_countMore_nines (k : Nat) {s t : State} (h : step s = .next t) :
    step (s.countMore (9 * k)) = .next (t.countMore (9 * k)) := by
  rcases tick_cases h with ⟨hrun, rfl⟩ | ⟨hrun, hpc, rfl⟩ | ⟨hrun, hpc, hd, rfl⟩ | ⟨hrun, hpc, i, hd, hi⟩
  · exact tick_halted (s := State.countMore _ _) hrun
  · refine (tick_outOfRange (s := s.countMore _) hrun hpc).trans ?_
    rw [beginTick_countMore_nines]
    rfl
  · refine (tick_runs (s := s.countMore _) hrun hpc).trans ((runWord_unknown hd _).trans ?_)
    rw [beginTick_countMore_nines]
    rfl
  · refine (tick_runs (s := s.countMore _) hrun hpc).trans ((runWord_instr hd _).trans ?_)
    rw [beginTick_countMore_nines]
    exact exec_countMore (9 * k) hi

/-- Settles O15: the general lemma on `countMore`, which is this record update. -/
theorem onlyTheCountModuloNineMatters : Obligations.OnlyTheCountModuloNineMatters := by
  intro k s t h
  exact step_countMore_nines k h

/-- The trace word does not reach the execute phase: a fetch overwrites it. -/
theorem step_latch {s t : State} (c : Word) (h : step s = .next t) :
    ∃ d : Word, step (s.latch c) = .next (t.latch d) := by
  rcases tick_cases h with ⟨hrun, rfl⟩ | ⟨hrun, hpc, rfl⟩ | ⟨hrun, hpc, hd, rfl⟩ | ⟨hrun, hpc, i, hd, hi⟩
  · exact ⟨c, tick_halted (s := State.latch _ c) hrun⟩
  · exact ⟨c, tick_outOfRange (s := s.latch c) hrun hpc⟩
  · exact ⟨s.wordAtPc, (tick_runs (s := s.latch c) hrun hpc).trans (runWord_unknown hd _)⟩
  · exact ⟨t.currentInstruction, (tick_runs (s := s.latch c) hrun hpc).trans ((runWord_instr hd _).trans hi)⟩

/-- Settles O16: every successful fetch overwrites the trace word, and nothing reads it. -/
theorem traceWordIsPurelyObservational : Obligations.TraceWordIsPurelyObservational := by
  refine ⟨rfl, fun _ => rfl, fun s t h => ?_, fun s t c h => step_latch c h⟩
  cases hrun : s.halted with
  | true =>
    rw [step_halted hrun] at h
    cases h
    rfl
  | false => simpa using step_currentInstruction hrun h

/-! ### The key wait in a whole tick -/

theorem key_eq_zero_iff {key : Keypad} : key = 0 ↔ lowestKeyDown key = none := by
  rw [lowestKeyDown_none]
  constructor
  · rintro rfl k -
    exact BitVec.getLsbD_zero
  · exact fun h => BitVec.eq_of_getLsbD_eq fun k hk => (h k hk).trans BitVec.getLsbD_zero.symm

/-- The key wait leaves `pc` exactly while no key is down, and then leaves the registers too. -/
theorem keyWait_holds_iff (x : Reg) (s : State) :
    ((keyWait x s).pc = s.pc ↔ s.key = 0) ∧ (s.key = 0 → (keyWait x s).v = s.v) := by
  rw [key_eq_zero_iff]
  cases hd : lowestKeyDown s.key with
  | none => simp [keyWait_of_none hd]
  | some k => simp [keyWait_of_some hd]

/-- Settles O53: the tick is the key wait of the state after the cadence. -/
theorem onlyAKeyEndsTheWait : Obligations.OnlyAKeyEndsTheWait := by
  intro x s t hrun hpc hd h
  rw [step_instr hrun hpc hd, exec_ldVxK, execLdVxK_eq] at h
  cases h
  obtain ⟨hholds, hregs⟩ := keyWait_holds_iff x s.afterFetch
  rw [afterFetch_pc, afterFetch_key] at hholds
  rw [afterFetch_key, afterFetch_v] at hregs
  exact ⟨(afterFetch_halted s).trans hrun, hholds, hregs, afterFetch_cycleCount s, toNat_afterFetch_dt s,
    toNat_afterFetch_st s⟩

/-! ### At rest (R300) -/

/-- The word of the jump to an address below 4096. -/
theorem packNNN_jump {w : Word} (h : w.toNat < 4096) : packNNN 0x1 (w.setWidth 12) = 0x1000#16 ||| w := by
  apply BitVec.eq_of_toNat_eq
  have hor : 2 ^ 12 * 1 + w.toNat = 2 ^ 12 * 1 ||| w.toNat := Nat.two_pow_add_eq_or_of_lt h 1
  rw [toNat_packNNN, BitVec.toNat_setWidth, Nat.mod_eq_of_lt h, BitVec.toNat_or]
  exact hor

/-- A tick at rest executes the jump to where it stands: it only counts, runs the timers and latches the word. -/
theorem step_atRest {s : State} (h : s.atRest) : step s = .next s.afterFetch := by
  obtain ⟨hrun, hpc, hword⟩ := h
  have hpc' : s.pc.toNat + 1 < 4096 := Nat.lt_succ_of_le hpc
  have hd : decodeWord s.wordAtPc = some (.jp (s.pc.setWidth 12)) := by
    rw [hword, ← packNNN_jump (by omega)]
    exact decodeWord_encode (i := .jp _) rfl
  have htarget : pcOfAddr (s.pc.setWidth 12) = s.afterFetch.pc := by
    apply BitVec.eq_of_toNat_eq
    rw [afterFetch_pc, toNat_pcOfAddr, BitVec.toNat_setWidth]
    exact Nat.mod_eq_of_lt (show s.pc.toNat < 4096 by omega)
  rw [step_instr hrun hpc' hd, exec_jp, htarget]
  rfl

theorem atRest_afterFetch {s : State} (h : s.atRest) : s.afterFetch.atRest := by
  obtain ⟨hrun, hpc, hword⟩ := h
  rw [afterFetch_eq]
  exact ⟨hrun, hpc, hword⟩

/-- A timer after one cadence and `n` more ticks, counted from `c`. -/
theorem cadence_ticks (c n : Nat) (b : Byte) :
    BitVec.ofNat 8 ((if (c + 1) % 9 = 0 then BitVec.ofNat 8 (b.toNat - 1) else b).toNat -
      ((c + 1 + n) / 9 - (c + 1) / 9)) = BitVec.ofNat 8 (b.toNat - ((c + (n + 1)) / 9 - c / 9)) := by
  rw [toNat_cadence]
  congr 1
  split <;> omega

/-- Settles O14: by induction on the number of ticks, from any count. -/
theorem ticksAtRestOnlyRunTheTimers : Obligations.TicksAtRestOnlyRunTheTimers := by
  intro n
  induction n with
  | zero =>
    intro s h
    refine ⟨s, rfl, h, ?_⟩
    simp
  | succ n ih =>
    intro s h
    obtain ⟨t, hrun, hrest, ht⟩ := ih s.afterFetch (atRest_afterFetch h)
    refine ⟨t, (core_run_next (step_atRest h) n).trans hrun, hrest, ht.trans ?_⟩
    rw [afterFetch_eq]
    simp only [cadence_ticks]
    simp only [Nat.add_assoc, Nat.add_comm 1 n]

/-! ### The halted machine and the first tick -/

/-- `t` differs from `s` in nothing but what the host writes without a reset or a load. -/
def DiffersInInputsOnly (s t : State) : Prop :=
  ∃ (d : Bool) (k : Keypad) (q : List Byte), t = { s with dirty := d, key := k, rndInjected := q }

/-- Settles O11: a halted machine's tick changes nothing and its `load` is refused, so over a session only the
host's own three fields can differ. -/
theorem onlyResetLeavesTheHaltedState : Obligations.OnlyResetLeavesTheHaltedState := by
  refine ⟨fun s hhalt => step_halted hhalt, fun ops s t hhalt hops h => ?_⟩
  have hkeeps : ∀ op ∈ ops, ∀ u u' : State, DiffersInInputsOnly s u → hostDo op u = .next u' →
      DiffersInInputsOnly s u' := by
    rintro op hop _ u' ⟨d, k, q, rfl⟩ hu
    cases op with
    | reset => exact absurd hop hops
    | load image =>
      have hticked := (hostLoad_next hu).1
      simp [State.ticked, hhalt] at hticked
    | tick =>
      cases (step_halted (s := { s with dirty := d, key := k, rndInjected := q }) hhalt).symm.trans hu
      exact ⟨d, k, q, rfl⟩
    | writeKeys _ | supplyRandom _ | clearDirty => cases hu; exact ⟨_, _, _, rfl⟩
  obtain ⟨d, k, q, rfl⟩ := hostRun_keeps hkeeps ⟨s.dirty, s.key, s.rndInjected, rfl⟩ h
  rfl

theorem ticked_iff (s : State) : s.ticked = true ↔ 0 < s.cycleCount ∨ s.halted = true := by
  rw [State.ticked, Bool.or_eq_true, decide_eq_true_iff]

theorem ticked_step {s t : State} (h : step s = .next t) : t.ticked = true := by
  cases hrun : s.halted with
  | true =>
    rw [step_halted hrun] at h
    cases h
    exact (ticked_iff s).2 (.inr hrun)
  | false => exact (ticked_iff t).2 (.inl (by rw [step_cycleCount hrun h]; omega))

/-- Settles O23: no operation but reset takes back that a tick has run. -/
theorem loadAfterTheFirstTickIsRefused : Obligations.LoadAfterTheFirstTickIsRefused := by
  intro image ops s t u _ hstep hops h
  have hkeeps : ∀ op ∈ ops, ∀ v w : State, v.ticked = true → hostDo op v = .next w → w.ticked = true := by
    intro op hop v w hv hw
    cases op with
    | reset => exact absurd hop hops
    | load image => rw [(hostLoad_next hw).1] at hv; cases hv
    | tick => exact ticked_step hw
    | writeKeys _ | supplyRandom _ | clearDirty => cases hw; exact hv
  rw [hostLoad, if_pos (hostRun_keeps hkeeps (ticked_step hstep) h)]

end Sys2Proof.Machine
end

section
/-! SUPPORT and PROOFS. Control flow and key skips (spec/41_control_flow.md, spec/45_keypad_timers.md R230, R231):
skips, the jump with offset, and how Call and Return nest. -/

namespace Sys2Proof.Machine

theorem ofNat_toNat_add (w : Word) (k : Nat) : BitVec.ofNat 16 (w.toNat + k) = w + BitVec.ofNat 16 k := by
  rw [BitVec.ofNat_add, BitVec.ofNat_toNat, BitVec.setWidth_eq]

/-! ### Skips -/

theorem advance_skipIf_beq (s : State) (a b : Byte) :
    (s.skipIf (a == b)).advance = s.setPc (BitVec.ofNat 16 (s.pc.toNat + if a.toNat = b.toNat then 4 else 2)) := by
  rw [State.advance_skipIf]
  simp only [beq_iff_eq, BitVec.toNat_inj]

theorem advance_skipIf_bne (s : State) (a b : Byte) :
    (s.skipIf (a != b)).advance = s.setPc (BitVec.ofNat 16 (s.pc.toNat + if a.toNat = b.toNat then 2 else 4)) := by
  rw [State.advance_skipIf]
  simp only [bne_iff_ne, ne_eq, ite_not, BitVec.toNat_inj]

theorem exec_seReg (x y : Reg) (n : Nibble) (s : State) :
    exec (.seReg x y n) s = .next (s.skipIf (s.reg x == s.reg y)).advance := rfl

theorem exec_sneReg (x y : Reg) (n : Nibble) (s : State) :
    exec (.sneReg x y n) s = .next (s.skipIf (s.reg x != s.reg y)).advance := rfl

/-- Settles O26: the low nibble is no argument of the meaning. -/
theorem registerSkipsMovePcByFourOrTwo : Obligations.RegisterSkipsMovePcByFourOrTwo := by
  intro x y n s
  rw [exec_seReg, exec_sneReg, advance_skipIf_beq, advance_skipIf_bne]
  exact ⟨rfl, rfl⟩

theorem infoOfByte_eq_ofNat (b : Byte) : infoOfByte b = BitVec.ofNat 16 b.toNat := (BitVec.ofNat_toNat 16 b).symm

/-- Settles O51: up to 15 the index names a key and the two are skips; above, both take the same fault. -/
theorem keySkipsTestTheNumberedKey : Obligations.KeySkipsTestTheNumberedKey := by
  intro x s
  refine ⟨fun hkey => ⟨?_, ?_⟩, fun hbad => ?_⟩
  · refine (exec_of_none (i := .skp x) (keyFault_eq_none.2 hkey)).trans ?_
    rw [completed, State.advance_skipIf]
    rfl
  · refine (exec_of_none (i := .sknp x) (keyFault_eq_none.2 hkey)).trans ?_
    rw [completed, State.advance_skipIf]
    cases hdown : s.key.getLsbD (s.reg x).toNat <;> simp [keyDown, hdown, State.setPc]
  · rw [← infoOfByte_eq_ofNat]
    exact ⟨exec_of_fault (i := .skp x) (keyFault_of_gt hbad), exec_of_fault (i := .sknp x) (keyFault_of_gt hbad)⟩

/-! ### The jump with offset, Call and Return -/

/-- Settles O27: the sum of a 12-bit and an 8-bit number needs no reduction. -/
theorem jumpWithOffsetAddsRegisterZero : Obligations.JumpWithOffsetAddsRegisterZero := by
  intro nnn s
  exact ⟨s.setPc (pcOfAddr nnn + pcOfByte (s.reg 0)), rfl, toNat_jumpTarget nnn (s.reg 0), rfl⟩

theorem exec_call_pushes {s : State} (h : s.sp.val ≠ 15) (nnn : Addr12) :
    exec (.call nnn) s = .next ((s.pushReturn s.pc).setPc (pcOfAddr nnn)) := execCall_pushes h nnn

theorem exec_call_full {s : State} (h : s.sp.val = 15) (nnn : Addr12) :
    exec (.call nnn) s = .next (s.enterFault .stackOverflow s.pc) := execCall_full h nnn

theorem exec_ret_pops {s : State} (h : s.sp.val ≠ 0) : exec .ret s = .next s.popReturn.advance := execRet_pops h

theorem exec_ret_empty {s : State} (h : s.sp.val = 0) : exec .ret s = .next (s.enterFault .stackUnderflow s.pc) :=
  execRet_empty h

/-- Settles O28: below 15, `sp + 1` does not wrap, and it names the only slot written. -/
theorem callPushesItsOwnAddress : Obligations.CallPushesItsOwnAddress := by
  intro nnn s
  refine ⟨fun hsp => ?_, fun hsp => exec_call_full hsp nnn⟩
  have hne : s.sp.val ≠ 15 := by omega
  refine ⟨_, exec_call_pushes hne nnn, val_sp_succ hne, ?_, fun k hk => ?_, toNat_pcOfAddr nnn, rfl⟩
  · exact (getElem_stack_pushReturn s s.pc (s.sp + 1)).trans (if_pos rfl)
  · exact (getElem_stack_pushReturn s s.pc k).trans (if_neg hk)

theorem val_sp_pred {k : Fin Config.stackSlots} (h : k.val ≠ 0) : (k - 1).val + 1 = k.val := by
  have hk := slot_lt k
  have hsub : (k - 1).val = (16 - 1 + k.val) % 16 := rfl
  omega

/-- Settles O29: above 0, `sp - 1` does not wrap, and the popped address is advanced by 2. -/
theorem returnResumesAfterTheCall : Obligations.ReturnResumesAfterTheCall := by
  intro s
  refine ⟨fun hsp => ?_, exec_ret_empty⟩
  have hne : s.sp.val ≠ 0 := by omega
  exact ⟨_, exec_ret_pops hne, (ofNat_toNat_add _ 2).symm, val_sp_pred hne, rfl⟩

/-- Settles O30: the Return pops the slot that the Call wrote. -/
theorem callThenReturnComesBack : Obligations.CallThenReturnComesBack := by
  intro nnn s t u hsp hcall husp hustack
  obtain ⟨t', ht', hval, htop, -⟩ := (callPushesItsOwnAddress nnn s).1 hsp
  cases hcall.symm.trans ht'
  have hne : u.sp.val ≠ 0 := by rw [husp, hval]; omega
  obtain ⟨r, hr, hpc, hrsp, -⟩ := (returnResumesAfterTheCall u).1 (by omega)
  refine ⟨r, hr, ?_, Fin.ext ?_⟩
  · rw [hpc, ← htop]
    simp only [husp, hustack]
  · rw [husp] at hrsp
    omega

theorem execAll_cons {i : Instr} {s t : State} (h : exec i s = .next t) (is : List Instr) :
    execAll (i :: is) s = execAll is t := by
  rw [execAll, h]

/-- Calls from any depth: `sp` grows by one a Call until it is 15, and from there on every Call overflows. -/
theorem execAll_calls : ∀ (targets : List Addr12) (s : State), ∃ t : State,
    execAll (targets.map Instr.call) s = .next t ∧ t.sp.val = min (s.sp.val + targets.length) 15 ∧
    (t.halted = false ↔ s.halted = false ∧ s.sp.val + targets.length ≤ 15) ∧
    (15 < s.sp.val + targets.length ∨ s.faultCause = .stackOverflow → t.faultCause = .stackOverflow)
  | [], s => by
    have hsp := slot_lt s.sp
    refine ⟨s, rfl, ?_, ?_, fun h => h.resolve_left ?_⟩
    · rw [List.length_nil]; omega
    · rw [List.length_nil]; exact ⟨fun h => ⟨h, by omega⟩, And.left⟩
    · rw [List.length_nil]; omega
  | nnn :: targets, s => by
    have hsp := slot_lt s.sp
    rw [List.map_cons, List.length_cons]
    by_cases hfull : s.sp.val = 15
    · obtain ⟨t, ht, htsp, hhalt, hcause⟩ := execAll_calls targets (s.enterFault .stackOverflow s.pc)
      refine ⟨t, (execAll_cons (exec_call_full hfull nnn) _).trans ht, ?_, ?_, fun _ => hcause (.inr rfl)⟩
      · rw [htsp, State.enterFault_sp]; omega
      · rw [hhalt]
        exact ⟨fun h => (nomatch h.1), fun h => absurd h.2 (by omega)⟩
    · obtain ⟨t, ht, htsp, hhalt, hcause⟩ := execAll_calls targets ((s.pushReturn s.pc).setPc (pcOfAddr nnn))
      have hnext : ((s.pushReturn s.pc).setPc (pcOfAddr nnn)).sp.val = s.sp.val + 1 := val_sp_succ hfull
      rw [hnext, Nat.add_assoc, Nat.add_comm 1] at htsp hhalt hcause
      exact ⟨t, (execAll_cons (exec_call_pushes hfull nnn) _).trans ht, htsp, hhalt, hcause⟩

/-- Settles O31: the calls of `execAll_calls` from depth 0. -/
theorem callsNestToTheStackDepth : Obligations.CallsNestToTheStackDepth := by
  intro targets s hrun hsp
  obtain ⟨t, ht, htsp, hhalt, hcause⟩ := execAll_calls targets s
  rw [hsp, Nat.zero_add] at htsp hhalt hcause
  exact ⟨t, ht, htsp, rfl, hhalt.trans (and_iff_right hrun), fun h => hcause (.inl h)⟩

end Sys2Proof.Machine
end

section
/-! SUPPORT and PROOFS. Register loads, ALU, random (spec/42_load_alu_random.md): what an instruction leaves that
writes one register, and one that writes a result and then the flag, said once each; the rest is arithmetic. -/

namespace Sys2Proof.Machine

/-- An instruction that writes `b` to `v[x]` and completes. -/
theorem exec_writes_reg {i : Instr} {s : State} {x : Reg} {b : Byte} (h : exec i s = .next (s.setReg x b).advance) :
    ∃ t : State, exec i s = .next t ∧ t.reg x = b ∧ (∀ k, k ≠ x → t.reg k = s.reg k) ∧
      t = { s with v := t.v, pc := s.pc + 2 } :=
  ⟨_, h, State.reg_setReg_same s x b, fun k hk => State.reg_setReg_ne s x k b hk, State.advance_setReg s x b⟩

/-- An instruction that writes `r` to `v[x]`, then a flag to VF, and completes. -/
theorem exec_writes_result_flag {i : Instr} {s : State} {x : Reg} {r : Byte} {c : Bool}
    (h : exec i s = .next (s.setResultFlag x r c).advance) :
    ∃ t : State, exec i s = .next t ∧ t.reg 15 = flagByte c ∧ (x ≠ 15 → t.reg x = r) ∧
      (∀ k, k ≠ x → k ≠ 15 → t.reg k = s.reg k) ∧ t = { s with v := t.v, pc := s.pc + 2 } := by
  have hreg := State.reg_setResultFlag s x r c
  refine ⟨_, h, State.reg_setResultFlag_flag s x r c, fun hx => ?_, fun k hkx hk => ?_, rfl⟩
  · rw [State.advance_reg, hreg, if_neg hx, if_pos rfl]
  · rw [State.advance_reg, hreg, if_neg hk, if_neg hkx]

/-- Settles O32: both write one register. -/
theorem loadsWriteTheirDestinationOnly : Obligations.LoadsWriteTheirDestinationOnly := by
  intro x y kk s
  exact ⟨exec_writes_reg rfl, exec_writes_reg rfl⟩

/-- Settles O34: all three write one register, and VF only where it is that register. -/
theorem logicOperationsActBitwise : Obligations.LogicOperationsActBitwise := by
  intro x y s
  refine ⟨?_, ?_, ?_⟩
  · obtain ⟨t, h, hx, hframe⟩ := exec_writes_reg (i := .orReg x y) (s := s) rfl
    exact ⟨t, h, fun b => hx ▸ BitVec.getLsbD_or, hframe⟩
  · obtain ⟨t, h, hx, hframe⟩ := exec_writes_reg (i := .andReg x y) (s := s) rfl
    exact ⟨t, h, fun b => hx ▸ BitVec.getLsbD_and, hframe⟩
  · obtain ⟨t, h, hx, hframe⟩ := exec_writes_reg (i := .xorReg x y) (s := s) rfl
    exact ⟨t, h, fun b => hx ▸ BitVec.getLsbD_xor, hframe⟩

/-! ### Results and flags as numbers -/

theorem toNat_carry (a b : Byte) : (flagByte (carryOut a b)).toNat = (a.toNat + b.toNat) / 256 := by
  have ha := byte_lt a; have hb := byte_lt b
  rw [toNat_flagByte]
  show (decide (255 < a.toNat + b.toNat)).toNat = (a.toNat + b.toNat) / 256
  by_cases h : 255 < a.toNat + b.toNat
  · rw [decide_eq_true h]; exact (show 1 = (a.toNat + b.toNat) / 256 by omega)
  · rw [decide_eq_false h]; exact (show 0 = (a.toNat + b.toNat) / 256 by omega)

theorem toNat_byte_add (a b : Byte) : (a + b).toNat = (a.toNat + b.toNat) % 256 := BitVec.toNat_add a b

theorem flagByte_exceeds (a b : Byte) : flagByte (exceeds a b) = if a.toNat > b.toNat then 1 else 0 := by
  simp only [flagByte, exceeds, decide_eq_true_eq, gt_iff_lt]

theorem toNat_sub_add (a b : Byte) : ((a - b).toNat + b.toNat) % 256 = a.toNat := by
  rw [← toNat_byte_add, BitVec.sub_add_cancel]

theorem toNat_shr_one (a : Byte) : (a >>> 1).toNat = a.toNat / 2 := by
  rw [BitVec.toNat_ushiftRight, Nat.shiftRight_eq_div_pow]

theorem toNat_lowBit (a : Byte) : (flagByte (lowBit a)).toNat = a.toNat % 2 := by
  rw [toNat_flagByte, lowBit, BitVec.getLsbD, Nat.toNat_testBit, Nat.pow_zero, Nat.div_one]

theorem toNat_shl_one (a : Byte) : (a <<< 1).toNat = 2 * a.toNat % 256 := by
  rw [BitVec.toNat_shiftLeft, Nat.shiftLeft_eq, Nat.mul_comm]
  rfl

theorem toNat_highBit (a : Byte) : (flagByte (highBit a)).toNat = a.toNat / 128 := by
  have := byte_lt a
  rw [toNat_flagByte, highBit, BitVec.getLsbD, Nat.toNat_testBit]
  exact Nat.mod_eq_of_lt (show a.toNat / 128 < 2 by omega)

/-- Settles O35: the result is the sum modulo 256 and the flag the quotient. -/
theorem addSetsResultThenCarry : Obligations.AddSetsResultThenCarry := by
  intro x y s
  obtain ⟨t, h, hflag, hx, hframe⟩ := exec_writes_result_flag (i := .addReg x y) (s := s) rfl
  refine ⟨t, h, ?_, fun hne => ?_, hframe⟩
  · rw [hflag, toNat_carry]
  · rw [hflag, toNat_carry, hx hne, toNat_byte_add]
    omega

/-- Settles O36: SUBN is SUB with the operands exchanged. -/
theorem subtractionsSetResultThenFlag : Obligations.SubtractionsSetResultThenFlag := by
  intro x y s
  constructor
  · obtain ⟨t, h, hflag, hx, hframe⟩ := exec_writes_result_flag (i := .subReg x y) (s := s) rfl
    exact ⟨t, h, hflag.trans (flagByte_exceeds _ _), fun hne => hx hne ▸ toNat_sub_add _ _, hframe⟩
  · obtain ⟨t, h, hflag, hx, hframe⟩ := exec_writes_result_flag (i := .subnReg x y) (s := s) rfl
    exact ⟨t, h, hflag.trans (flagByte_exceeds _ _), fun hne => hx hne ▸ toNat_sub_add _ _, hframe⟩

/-- Settles O37: a shift right halves, a shift left doubles, and the flag is what that loses. -/
theorem shiftsMoveOneBitIntoTheFlag : Obligations.ShiftsMoveOneBitIntoTheFlag := by
  intro x y s
  constructor
  · obtain ⟨t, h, hflag, hx, hframe⟩ := exec_writes_result_flag (i := .shr x y) (s := s) rfl
    refine ⟨t, h, hflag ▸ toNat_lowBit _, fun hne => ?_, hframe⟩
    rw [hflag, toNat_lowBit, hx hne, toNat_shr_one]
    omega
  · obtain ⟨t, h, hflag, hx, hframe⟩ := exec_writes_result_flag (i := .shl x y) (s := s) rfl
    refine ⟨t, h, hflag ▸ toNat_highBit _, fun hne => ?_, hframe⟩
    rw [hflag, toNat_highBit, hx hne, toNat_shl_one]
    omega

theorem exec_rnd (x : Reg) (kk : Byte) (s : State) :
    exec (.rnd x kk) s = .next (s.takeRandom.setReg x (s.randomByte &&& kk)).advance := rfl

/-- Settles O38: the byte is the head of the queue or, when that is empty, the free value. -/
theorem randomConsumesOneMaskedByte : Obligations.RandomConsumesOneMaskedByte := by
  intro x kk s
  have hx : (s.takeRandom.setReg x (s.randomByte &&& kk)).advance.reg x = s.randomByte &&& kk :=
    State.reg_setReg_same _ x _
  refine ⟨_, s.randomByte, exec_rnd x kk s, hx, fun b hb => ?_, fun r' rest hq => ?_, fun hq => ?_, rfl,
    fun k hk => State.reg_setReg_ne _ x k _ hk, rfl⟩
  · rw [hx, BitVec.getLsbD_and, hb, Bool.and_false]
  · simp [State.randomByte, hq]
  · simp [State.randomByte, hq]

end Sys2Proof.Machine
end

section
/-! SUPPORT and PROOFS. Index register and memory (spec/43_index_memory.md): what a store leaves in memory, byte by
byte, that the next fetch sees it, and that a load reads back what a dump stored. -/

namespace Sys2Proof.Machine

/-- Settles O40: the widened register is added in 16 bits. -/
theorem addToIndexWrapsWithoutFlag : Obligations.AddToIndexWrapsWithoutFlag := by
  intro x s
  refine ⟨(s.setI (s.I + indexOfByte (s.reg x))).advance, rfl, ?_, State.advance_setI s _⟩
  rw [State.advance_I, State.setI_I, BitVec.toNat_add, toNat_indexOfByte]
  rfl

/-- The frame of an instruction that writes memory and completes. -/
theorem State.advance_setMem (s : State) (m : Memory) :
    (s.setMem m).advance = { s with mem := m, pc := s.pc + 2 } := rfl

theorem exec_ldB_inRange {s : State} (h : s.I.toNat + 3 ≤ 4096) (x : Reg) :
    exec (.ldB x) s = .next (s.setMem (s.mem.writeBytes s.I.toNat (bcdDigits (s.reg x)))).advance :=
  execLdB_inRange h x

theorem exec_ldMemVx_inRange {s : State} {x : Reg} (h : s.I.toNat + (x.val + 1) ≤ 4096) :
    exec (.ldMemVx x) s = .next (s.setMem (s.mem.writeBytes s.I.toNat (s.regsUpTo x))).advance :=
  execLdMemVx_inRange h

theorem exec_ldVxMem_inRange {s : State} {x : Reg} (h : s.I.toNat + (x.val + 1) ≤ 4096) :
    exec (.ldVxMem x) s = .next (s.setRegs (loadRegs s.mem s.I.toNat s.v (x.val + 1))).advance :=
  execLdVxMem_inRange h

/-- What the three digits of a byte are as numbers; each fits a byte. -/
theorem toNat_getElem_bcdDigits (b : Byte) (k : Nat) (hk : k < 3) :
    ((bcdDigits b)[k]'hk).toNat = b.toNat / 10 ^ (2 - k) % 10 := by
  have hb := byte_lt b
  match k, hk with
  | 0, _ => exact (Nat.mod_eq_of_lt (show b.toNat / 100 < 256 by omega)).trans (show _ = b.toNat / 100 % 10 by omega)
  | 1, _ => exact Nat.mod_eq_of_lt (show b.toNat / 10 % 10 < 256 by omega)
  | 2, _ => exact (Nat.mod_eq_of_lt (show b.toNat % 10 < 256 by omega)).trans (show _ = b.toNat / 1 % 10 by omega)

/-- Settles O41: each byte read back is its digit, and the digits make up the number. -/
theorem bcdStoresTheDecimalDigits : Obligations.BcdStoresTheDecimalDigits := by
  intro x s hwf hI
  have hb := byte_lt (s.reg x)
  have hdigit : ∀ k, k < 3 → ((s.mem.writeBytes s.I.toNat (bcdDigits (s.reg x))).read (s.effAddr k)).toNat =
      (s.reg x).toNat / 10 ^ (2 - k) % 10 := fun k hk => by
    rw [State.effAddr, Memory.read_writeBytes_inside (bcdDigits (s.reg x)) hwf s.I.toNat k hk hI,
      toNat_getElem_bcdDigits]
  have h0 := hdigit 0 (by decide); have h1 := hdigit 1 (by decide); have h2 := hdigit 2 (by decide)
  refine ⟨_, exec_ldB_inRange hI x, ?_, ?_, ?_, fun a ha => ?_, State.advance_setMem s _⟩
  · rw [State.advance_mem, State.setMem_mem, h0, h1, h2]
    omega
  · rw [State.advance_mem, State.setMem_mem, h1]
    omega
  · rw [State.advance_mem, State.setMem_mem, h2]
    omega
  · exact Memory.read_writeBytes_outside (bcdDigits (s.reg x)) s.mem s.I.toNat a ha

/-- Settles O42: element `k` of the stored list is `v[k]`. -/
theorem registerDumpStoresRegistersInOrder : Obligations.RegisterDumpStoresRegistersInOrder := by
  intro x s hwf hI
  have hlen := length_regsUpTo s x
  refine ⟨_, exec_ldMemVx_inRange hI, fun k hk => ?_, fun a ha => ?_, State.advance_setMem s _⟩
  · have hk' : k.val < (s.regsUpTo x).length := by omega
    exact (Memory.read_writeBytes_inside _ hwf s.I.toNat k.val hk' (by omega)).trans (getElem_regsUpTo s x k hk')
  · exact Memory.read_writeBytes_outside _ s.mem s.I.toNat a (by rwa [hlen])

/-- Settles O43: `loadRegs` writes the registers below its count, here `x + 1`. -/
theorem registerLoadReadsMemoryInOrder : Obligations.RegisterLoadReadsMemoryInOrder := by
  intro x s hI
  have hreg := fun k : Reg => getElem_loadRegs s.mem s.I.toNat s.v k.val k.isLt (x.val + 1)
  refine ⟨_, exec_ldVxMem_inRange hI, fun k hk => ?_, fun k hk => ?_, rfl⟩
  · exact (hreg k).trans (if_pos (by omega))
  · exact (hreg k).trans (if_neg (by omega))

/-- Settles O44: the load finds at `I + k` what the dump stored there. -/
theorem dumpThenLoadRestoresRegisters : Obligations.DumpThenLoadRestoresRegisters := by
  intro x s v pc hwf hI
  obtain ⟨t, ht, hstored, -, hframe⟩ := registerDumpStoresRegistersInOrder x s hwf hI
  have hIt : t.I = s.I := by rw [hframe]
  obtain ⟨u, hu, hloaded, -, hframe'⟩ := registerLoadReadsMemoryInOrder x { t with v := v, pc := pc } (by rwa [hIt])
  refine ⟨t, u, ht, hu, fun k hk => ?_, hIt, by rw [hframe', hIt]⟩
  rw [hloaded k hk, ← hstored k hk]
  simp only [State.effAddr, hIt]

/-- Settles O45: each of the four instructions takes the fault of its access. -/
theorem outOfRangeAccessHaltsBeforeAnyWrite : Obligations.OutOfRangeAccessHaltsBeforeAnyWrite := by
  intro i n s hn hI hi
  have hfault : faultOf i s = accessFault n s := by
    rcases hi with ⟨x, rfl, rfl⟩ | ⟨x, rfl, rfl⟩ | ⟨x, rfl, rfl⟩ | ⟨x, y, rfl⟩ <;> rfl
  exact exec_of_fault (hfault.trans (accessFault_of_gt (by omega) hI))

/-! ### What the next fetch reads -/

theorem getD_bcdDigits (x : Reg) (s : State) {k : Nat} (hk : k < 3) :
    (bcdDigits (s.reg x)).getD k 0 = storedByte (.ldB x) s k := by
  match k, hk with
  | 0, _ | 1, _ | 2, _ => rfl

theorem getD_regsUpTo (x : Reg) (s : State) {k : Nat} (hk : k < x.val + 1) :
    (s.regsUpTo x).getD k 0 = storedByte (.ldMemVx x) s k := by
  rw [State.regsUpTo, storedByte, List.getD_eq_getElem?_getD, List.getD_eq_getElem?_getD, List.getElem?_take_of_lt hk]

/-- Memory after an instruction that completes within it, at any address. -/
theorem completed_mem_read_eq {i : Instr} {s : State} (hwf : s.mem.wf = true) (hr : s.I.toNat + storeLength i ≤ 4096)
    (a : Nat) : (completed i s).mem.read a = byteAfter i s a := by
  by_cases hin : s.I.toNat ≤ a ∧ a < s.I.toNat + storeLength i
  · rw [byteAfter_covered hin]
    cases i with
    | ldB x =>
      rw [← getD_bcdDigits x s (show a - s.I.toNat < 3 by simp only [storeLength] at hin; omega)]
      exact (Memory.read_writeBytes hwf (bcdDigits (s.reg x)) s.I.toNat a hr).trans (if_pos hin)
    | ldMemVx x =>
      have hlen := length_regsUpTo s x
      rw [← getD_regsUpTo x s (show a - s.I.toNat < x.val + 1 by simp only [storeLength] at hin; omega)]
      exact (Memory.read_writeBytes hwf (s.regsUpTo x) s.I.toNat a (by rw [hlen]; exact hr)).trans
        (if_pos (by rw [hlen]; exact hin))
    | _ => exact absurd hin.1 (Nat.not_le.2 hin.2)
  · rw [byteAfter_outside hin]
    exact completed_mem_read s (show a < s.I.toNat ∨ s.I.toNat + storeLength i ≤ a by omega)

theorem byteAfter_afterFetch (i : Instr) (s : State) (a : Nat) : byteAfter i s.afterFetch a = byteAfter i s a := by
  rw [afterFetch_eq]
  cases i <;> rfl

/-- Settles O46: the storing tick leaves a machine that runs on at `pc + 2`, and its next tick latches what it fetches
there. -/
theorem storeIsSeenByTheNextFetch : Obligations.StoreIsSeenByTheNextFetch := by
  intro i x s t hi hwf hrun hI hpc hd hstep
  have hnone : faultOf i s.afterFetch = none := by
    rcases hi with rfl | rfl <;> exact accessFault_eq_none.2 (.inr (by rw [afterFetch_I]; exact hI))
  have hadv : pcEffect i = .advances := by rcases hi with rfl | rfl <;> rfl
  have ht : t = completed i s.afterFetch := by
    rw [step_instr hrun (by omega) hd, exec_of_none hnone] at hstep
    cases hstep
    rfl
  have htpc : t.pc.toNat = s.pc.toNat + 2 := by
    rw [ht, completed_pc_of_advances _ hadv, afterFetch_pc]
    exact toNat_add_ofNat_of_le (k := 2) (by omega)
  have hread : ∀ a, t.mem.read a = byteAfter i s a := fun a => by
    rw [ht, completed_mem_read_eq (by rwa [afterFetch_mem]) (by rwa [afterFetch_I]), byteAfter_afterFetch]
  have htrun : t.halted = false := by rw [ht, completed_halted, afterFetch_halted, hrun]
  obtain ⟨u, hu⟩ := step_next t
  refine ⟨u, hu, ?_⟩
  rw [step_currentInstruction htrun hu, if_pos (by omega), toNat_wordAtPc, htpc, hread, hread]

end Sys2Proof.Machine
end

section
/-! SUPPORT and PROOFS. Display (spec/44_display.md): DRW pixel by pixel, drawing twice, and who writes the pixels. -/

namespace Sys2Proof.Machine

theorem exec_drw_inRange {s : State} {n : Nat} (h : n = 0 ∨ s.I.toNat + n ≤ 4096) (x y : Reg) :
    exec (.drw x y n) s = .next ((s.setPicture (spriteCanvas x y n s).1).setFlag (spriteCanvas x y n s).2).advance :=
  execDrw_inRange h x y

theorem flagByte_eq_one_iff (c : Bool) : flagByte c = 1 ↔ c = true := by cases c <;> decide

theorem flagByte_zero_or_one (c : Bool) : flagByte c = 0 ∨ flagByte c = 1 := by cases c <;> decide

/-- Settles O48: the canvas of `spriteCanvas`, with its hit written to VF. -/
theorem drawInvertsExactlyTheSpritePixels : Obligations.DrawInvertsExactlyTheSpritePixels := by
  intro x y n s _ hI
  have hflag : ((s.setPicture (spriteCanvas x y n s).1).setFlag (spriteCanvas x y n s).2).advance.reg 15 =
      flagByte (spriteCanvas x y n s).2 := State.reg_setFlag_flag _ _
  refine ⟨_, exec_drw_inRange hI x y, fun row col hrow hcol => pixel_spriteCanvas x y n s hrow hcol, ?_, ?_,
    fun k hk => State.reg_setFlag_ne _ _ k hk, rfl⟩
  · rw [hflag]
    exact flagByte_zero_or_one _
  · rw [hflag, flagByte_eq_one_iff, hit_spriteCanvas]

/-- A sprite depends on its two coordinates, `I` and memory only. -/
theorem spriteLit_congr {x y : Reg} {s t : State} (hx : t.reg x = s.reg x) (hy : t.reg y = s.reg y)
    (hI : t.I = s.I) (hmem : t.mem = s.mem) (n row col : Nat) :
    spriteLit x y n t row col = spriteLit x y n s row col := by
  simp only [spriteLit, State.effAddr, hx, hy, hI, hmem]

/-- Settles O49: the first drawing leaves the sprite where it was, and inverting a pixel twice restores it. -/
theorem drawingTwiceRestoresTheScreen : Obligations.DrawingTwiceRestoresTheScreen := by
  intro x y n s hx hy hn hI
  obtain ⟨t, ht, htfb, -, hthit, htreg, htframe⟩ := drawInvertsExactlyTheSpritePixels x y n s hn hI
  have hIt : t.I = s.I := by rw [htframe]
  have hlit := spriteLit_congr (htreg x hx) (htreg y hy) hIt (show t.mem = s.mem by rw [htframe]) n
  obtain ⟨u, hu, hufb, -, huhit, -⟩ := drawInvertsExactlyTheSpritePixels x y n t hn (by rwa [hIt])
  have hpixel : ∀ row col, row < 32 → col < 64 → ((t.fb.pixel row col = true ∧ spriteLit x y n t row col = true) ↔
      (s.fb.pixel row col = false ∧ spriteLit x y n s row col = true)) := fun row col hrow hcol => by
    rw [htfb row col hrow hcol, hlit]
    cases s.fb.pixel row col <;> cases spriteLit x y n s row col <;> decide
  have hover : u.reg 15 = 1 ↔
      ∃ row col, row < 32 ∧ col < 64 ∧ s.fb.pixel row col = false ∧ spriteLit x y n s row col = true :=
    huhit.trans (exists_congr fun row => exists_congr fun col =>
      and_congr_right fun hrow => and_congr_right fun hcol => hpixel row col hrow hcol)
  refine ⟨t, u, ht, hu, framebuffer_ext fun row col hrow hcol => ?_, hover, fun hclear => hover.trans ?_⟩
  · rw [hufb row col hrow hcol, htfb row col hrow hcol, hlit, bne_bne_bool, bne_self_eq_false, Bool.bne_false]
  · refine exists_congr fun row => exists_congr fun col => and_congr_right fun hrow => and_congr_right fun hcol =>
      and_iff_right_of_imp fun hlit => Bool.eq_false_iff.2 fun hset => ?_
    have hhit : t.reg 15 = 1 := hthit.2 ⟨row, col, hrow, hcol, hset, hlit⟩
    rw [hclear] at hhit
    cases hhit

/-- No host operation but reset and a tick at CLS or DRW changes the framebuffer. -/
theorem hostDo_changes_fb {op : HostOp} {s t : State} (h : hostDo op s = .next t) (hfb : t.fb ≠ s.fb) :
    op = .reset ∨
    (op = .tick ∧ s.halted = false ∧ s.pc.toNat + 1 < 4096 ∧
      (decodeWord s.wordAtPc = some .cls ∨ ∃ x y n, decodeWord s.wordAtPc = some (.drw x y n))) := by
  cases op with
  | reset => exact .inl rfl
  | load image => rw [(hostLoad_next h).2] at hfb; exact absurd rfl hfb
  | writeKeys _ | supplyRandom _ | clearDirty => cases h; exact absurd rfl hfb
  | tick =>
    rcases tick_cases h with ⟨-, rfl⟩ | ⟨-, -, rfl⟩ | ⟨-, -, -, rfl⟩ | ⟨hrun, hpc, i, hd, hi⟩
    · exact absurd rfl hfb
    · exact absurd rfl hfb
    · exact absurd rfl hfb
    · have hne := exec_changed (f := State.fb) (fun _ _ _ => rfl) hi hfb
      refine .inr ⟨rfl, hrun, hpc, ?_⟩
      rcases completed_screen_changed (fun e => hne (congrArg Prod.fst e)) with rfl | ⟨x, y, n, rfl⟩
      · exact .inl hd
      · exact .inr ⟨x, y, n, hd⟩

/-- Which pixels DRW inverts, faulting or not, said without the framebuffer. -/
theorem exec_drw_inverts {x y : Reg} {n : Nat} {s t : State} (h : exec (.drw x y n) s = .next t) {row col : Nat}
    (hrow : row < 32) (hcol : col < 64) :
    (t.fb.pixel row col != s.fb.pixel row col) = ((accessFault n s).isNone && spriteLit x y n s row col) := by
  rcases exec_cases h with ⟨c, info, hf, rfl⟩ | ⟨hf, rfl⟩
  · rw [show accessFault n s = _ from hf]
    simp
  · rw [show accessFault n s = _ from hf,
      show (completed (.drw x y n) s).fb.pixel row col = _ from pixel_spriteCanvas x y n s hrow hcol]
    cases s.fb.pixel row col <;> simp

/-- Settles O50: the pixels DRW inverts are the same on both screens, since `exec_drw_inverts` names neither. -/
theorem onlyClearDrawAndResetWriteThePixels : Obligations.OnlyClearDrawAndResetWriteThePixels := by
  refine ⟨fun op s t h hfb => hostDo_changes_fb h hfb, fun i s t f hcls hdrw h => exec_update_fb f hcls hdrw h,
    fun x y n s t t' f h h' row col hrow hcol => ?_⟩
  exact (exec_drw_inverts h hrow hcol).trans (exec_drw_inverts h' hrow hcol).symm

end Sys2Proof.Machine
end

section
/-! SUPPORT and PROOFS. Reset and the host's inputs (spec/10_state.md section 9, spec/70_reset_and_hazards.md R290,
R295): what each leaves, field by field. -/

namespace Sys2Proof.Machine

/-- Above the font, memory is 0 at reset. -/
theorem resetByte_above_font {a : Nat} (h : 0x050 ≤ a) : Config.resetByte a = 0 := by
  have hlen : Config.font.length = 80 := rfl
  rw [Config.resetByte, List.getElem?_eq_none (by rw [hlen]; exact h), Option.getD_none]

/-- Settles O17: the host's reset is the reset state but for the random supply. -/
theorem resetLeavesTheSpecifiedValues : Obligations.ResetLeavesTheSpecifiedValues := by
  have hregs : ∀ x : Reg, State.reset.reg x = 0 := by decide
  have hstack : ∀ k : Fin 16, State.reset.stack[k.val] = 0 := by decide
  have hfb : ∀ row col, State.reset.fb.pixel row col = false := pixel_blankFramebuffer
  refine ⟨hregs, rfl, rfl, rfl, hstack, rfl, rfl, hfb, rfl, rfl, rfl, rfl, rfl, rfl, rfl, by decide, by decide,
    fun a ha _ => resetByte_above_font ha, fun s => ?_⟩
  exact ⟨hostReset s, rfl, rfl, hregs, rfl, rfl, rfl, hstack, rfl, rfl, hfb, rfl, rfl, rfl, rfl, rfl, rfl, rfl, rfl,
    rfl⟩

/-- Settles O18: each operation is one record update, and injected bytes are appended. -/
theorem hostInputsWriteOnlyTheirField : Obligations.HostInputsWriteOnlyTheirField := by
  intro s key bytes
  exact ⟨hostWriteKeys key s, hostClearDirty s, hostSupplyRandom bytes s, rfl, fun _ => rfl, rfl, rfl, rfl, rfl, rfl,
    fun _ => List.getElem?_append, rfl⟩

end Sys2Proof.Machine
end
